-- ==== Sys2Proof/Word.lean ====
section
/-! DEFINITION. The 32-bit pattern, the byte and their views (spec/00_scope.md R9 to R12). -/

namespace Sys2Proof

/-- A 32-bit pattern: register values, the pc, immediates, instruction words (R10). -/
abbrev Word := BitVec 32

/-- An 8-bit pattern: one byte of memory (R34). -/
abbrev Byte := BitVec 8

/-- The number of a general register, 0 to 31 (R20, R21). -/
abbrev Reg := Fin 32

/-- `wrap32(n) = n mod 2^32`: an exact integer back to a pattern (R10). -/
def wrap32 (n : Int) : Word := BitVec.ofInt 32 n

/-- `bool2p(c)`: 1 if c is true, else 0 (R12). -/
def bool2p (c : Bool) : Word := if c then 1#32 else 0#32

end Sys2Proof
end

