-- ==== Sys2Proof/Config.lean ====
section
/-! DEFINITION. What construction fixes (spec/00_scope.md R3, R6) and the open parameters of the spec
(spec/93_implementation_defined.md U4, U8, U9), which no definition gives a value. -/

namespace Sys2Proof

/-- The three extensions, the unit of configuration (R3, R93). -/
inductive Ext where
  | base
  | muldiv
  | envcall
  deriving DecidableEq, Repr

namespace Config

/-- The largest memory size a construct accepts, in bytes (R6, decision D12). -/
def maxMemSize : Nat := 2 ^ 32

/-- STORE_FAULT_BYTES (20_memory.md R53, decision D7; log 7): whether, in the `draw`-th store that is
partly in bounds, the in-bounds byte at `address` holds the new byte (true) or its old value (false).
Free: it has no body. -/
opaque storeFaultTakesNew (draw address : Nat) : Bool

/-- SINK_RENDER (60_exceptions.md R254, decision D16; log 15): the characters written for a print event. Free. -/
opaque sinkRender (event : Int) : String

/-- DISASM_TEXT (30_encoding.md R102, decision D18; log 16): what follows the mnemonic in the text of a word
whose behavior has this catalog mnemonic, the operands with whatever separates them from it. Free. -/
opaque operandText (mnemonic : String) (w : Word) : String

/-- DISASM_TEXT's placeholder for a word that peek cannot show (60_exceptions.md R252, decision D18; log 16). Free. -/
opaque placeholderText : String

end Config

end Sys2Proof
end

