-- ==== Sys2Proof/Syntax.lean ====
section
/-! DEFINITION. The 48 instructions, one constructor per row of spec/opcode_table.json
(spec/30_encoding.md R92). Immediates have the width the encoding gives them; their 32-bit patterns
are made in Machine/Operands.lean. -/

namespace Sys2Proof

/-- An instruction with its operands. The fields that `fence`, `ecall` and `ebreak` ignore (R91) are
kept, so that no bit of the word is lost (log 13). A branch or jump offset keeps its implicit bit 0
(R86, R88), which WellFormed requires to be 0. -/
inductive Instr where
  -- upper immediates: imm20 = w[31:12] (R87)
  | lui (rd : Reg) (imm20 : BitVec 20)
  | auipc (rd : Reg) (imm20 : BitVec 20)
  -- jumps: offset is the 21-bit imm_j (R88), imm the 12-bit imm_i (R84)
  | jal (rd : Reg) (offset : BitVec 21)
  | jalr (rd rs1 : Reg) (imm : BitVec 12)
  -- branches: offset is the 13-bit imm_b (R86)
  | beq (rs1 rs2 : Reg) (offset : BitVec 13)
  | bne (rs1 rs2 : Reg) (offset : BitVec 13)
  | blt (rs1 rs2 : Reg) (offset : BitVec 13)
  | bge (rs1 rs2 : Reg) (offset : BitVec 13)
  | bltu (rs1 rs2 : Reg) (offset : BitVec 13)
  | bgeu (rs1 rs2 : Reg) (offset : BitVec 13)
  -- loads: imm is the 12-bit imm_i
  | lb (rd rs1 : Reg) (imm : BitVec 12)
  | lh (rd rs1 : Reg) (imm : BitVec 12)
  | lw (rd rs1 : Reg) (imm : BitVec 12)
  | lbu (rd rs1 : Reg) (imm : BitVec 12)
  | lhu (rd rs1 : Reg) (imm : BitVec 12)
  -- stores: imm is the 12-bit imm_s (R85)
  | sb (rs1 rs2 : Reg) (imm : BitVec 12)
  | sh (rs1 rs2 : Reg) (imm : BitVec 12)
  | sw (rs1 rs2 : Reg) (imm : BitVec 12)
  -- register with immediate
  | addi (rd rs1 : Reg) (imm : BitVec 12)
  | slti (rd rs1 : Reg) (imm : BitVec 12)
  | sltiu (rd rs1 : Reg) (imm : BitVec 12)
  | xori (rd rs1 : Reg) (imm : BitVec 12)
  | ori (rd rs1 : Reg) (imm : BitVec 12)
  | andi (rd rs1 : Reg) (imm : BitVec 12)
  | slli (rd rs1 : Reg) (shamt : Fin 32)
  | srli (rd rs1 : Reg) (shamt : Fin 32)
  | srai (rd rs1 : Reg) (shamt : Fin 32)
  -- register with register
  | add (rd rs1 rs2 : Reg)
  | sub (rd rs1 rs2 : Reg)
  | sll (rd rs1 rs2 : Reg)
  | slt (rd rs1 rs2 : Reg)
  | sltu (rd rs1 rs2 : Reg)
  | xor (rd rs1 rs2 : Reg)
  | srl (rd rs1 rs2 : Reg)
  | sra (rd rs1 rs2 : Reg)
  | or (rd rs1 rs2 : Reg)
  | and (rd rs1 rs2 : Reg)
  -- miscellaneous and system: every operand is ignored
  | fence (rd rs1 : Reg) (imm : BitVec 12)
  | ecall (rd rs1 : Reg)
  | ebreak (rd rs1 : Reg)
  -- multiply and divide
  | mul (rd rs1 rs2 : Reg)
  | mulh (rd rs1 rs2 : Reg)
  | mulhsu (rd rs1 rs2 : Reg)
  | mulhu (rd rs1 rs2 : Reg)
  | div (rd rs1 rs2 : Reg)
  | divu (rd rs1 rs2 : Reg)
  | rem (rd rs1 rs2 : Reg)
  | remu (rd rs1 rs2 : Reg)
  deriving DecidableEq, Repr

end Sys2Proof
end

