-- ==== Sys2Proof/WellFormed.lean ====
section
/-! DEFINITION. Which instruction terms an encoding can express. Every operand's type has exactly the
width of its field, so the one thing left to check is the implicit zero bit of a branch or jump offset
(spec/30_encoding.md R86, R88). -/

namespace Sys2Proof

/-- Bit 0 of a branch or jump offset is 0: the offset is even (R86, R88). -/
def evenOffset {n : Nat} (offset : BitVec n) : Bool := !offset.getLsbD 0

/-- The term is one that a 32-bit word encodes. -/
def Instr.wellFormed : Instr → Bool
  | .lui _ _ | .auipc _ _ => true
  | .jal _ offset => evenOffset offset
  | .jalr _ _ _ => true
  | .beq _ _ offset | .bne _ _ offset | .blt _ _ offset
  | .bge _ _ offset | .bltu _ _ offset | .bgeu _ _ offset => evenOffset offset
  | .lb _ _ _ | .lh _ _ _ | .lw _ _ _ | .lbu _ _ _ | .lhu _ _ _ => true
  | .sb _ _ _ | .sh _ _ _ | .sw _ _ _ => true
  | .addi _ _ _ | .slti _ _ _ | .sltiu _ _ _ | .xori _ _ _ | .ori _ _ _ | .andi _ _ _ => true
  | .slli _ _ _ | .srli _ _ _ | .srai _ _ _ => true
  | .add _ _ _ | .sub _ _ _ | .sll _ _ _ | .slt _ _ _ | .sltu _ _ _
  | .xor _ _ _ | .srl _ _ _ | .sra _ _ _ | .or _ _ _ | .and _ _ _ => true
  | .fence _ _ _ | .ecall _ _ | .ebreak _ _ => true
  | .mul _ _ _ | .mulh _ _ _ | .mulhsu _ _ _ | .mulhu _ _ _
  | .div _ _ _ | .divu _ _ _ | .rem _ _ _ | .remu _ _ _ => true

end Sys2Proof
end

