-- ==== Sys2Proof/Decode.lean ====
section
/-! DEFINITION. Fields of a word, the behavior catalog and dispatch, the decoder built on them, and the
encoder (spec/30_encoding.md R80 to R99). The bit positions and code values are the spec's choice
(decisions D2 and D9; log 10). -/

namespace Sys2Proof

/-! ### Fields (R82 to R89) -/

/-- The named fields of an instruction word, every one extracted from every word whatever its format
(R82). The immediates stand at the width of their encoding. -/
structure DecodedFields where
  opcode : BitVec 7
  rd : Reg
  funct3 : BitVec 3
  rs1 : Reg
  rs2 : Reg
  funct7 : BitVec 7
  funct12 : BitVec 12
  shamt : Fin 32
  immI : BitVec 12
  immS : BitVec 12
  immB : BitVec 13
  immU : BitVec 20
  immJ : BitVec 21
  deriving DecidableEq, Repr

/-- A 5-bit field as a register number or a shift amount. -/
def ofField (b : BitVec 5) : Fin 32 := b.toFin

/-- A register number or a shift amount as a 5-bit field. -/
def toField (r : Fin 32) : BitVec 5 := BitVec.ofFin r

/-- Decode a word into its fields: total and pure (R83). -/
def decodeFields (w : Word) : DecodedFields where
  opcode := w.extractLsb 6 0
  rd := ofField (w.extractLsb 11 7)
  funct3 := w.extractLsb 14 12
  rs1 := ofField (w.extractLsb 19 15)
  rs2 := ofField (w.extractLsb 24 20)
  funct7 := w.extractLsb 31 25
  funct12 := w.extractLsb 31 20
  shamt := ofField (w.extractLsb 24 20)
  immI := w.extractLsb 31 20
  immS := w.extractLsb 31 25 ++ w.extractLsb 11 7
  immB := w.extractLsb 31 31 ++ w.extractLsb 7 7 ++ w.extractLsb 30 25 ++ w.extractLsb 11 8 ++ 0#1
  immU := w.extractLsb 31 12
  immJ := w.extractLsb 31 31 ++ w.extractLsb 19 12 ++ w.extractLsb 20 20 ++ w.extractLsb 30 21 ++ 0#1

/-! ### Behaviors and the catalog (R91 to R94) -/

/-- One behavior of the catalog: a row of R92, named by its mnemonic. -/
inductive Op where
  | lui | auipc | jal | jalr | beq | bne | blt | bge | bltu | bgeu
  | lb | lh | lw | lbu | lhu | sb | sh | sw | addi | slti
  | sltiu | xori | ori | andi | slli | srli | srai | add | sub | sll
  | slt | sltu | xor | srl | sra | or | and | fence | ecall | ebreak
  | mul | mulh | mulhsu | mulhu | div | divu | rem | remu
  deriving DecidableEq, Repr

/-- A match key: equalities on some of opcode, funct3, funct7 and funct12, never on a register or an
immediate (R91). -/
structure Key where
  opcode : BitVec 7
  funct3 : Option (BitVec 3) := none
  funct7 : Option (BitVec 7) := none
  funct12 : Option (BitVec 12) := none
  deriving DecidableEq, Repr

/-- The tested field is not in the key, or it has the key's value. -/
def Key.tests {n : Nat} (wanted : Option (BitVec n)) (value : BitVec n) : Bool :=
  match wanted with
  | none => true
  | some v => v == value

/-- The key's predicate over the fields (R91). -/
def Key.matches (k : Key) (f : DecodedFields) : Bool :=
  k.opcode == f.opcode && Key.tests k.funct3 f.funct3 && Key.tests k.funct7 f.funct7
    && Key.tests k.funct12 f.funct12

/-- The match keys, column "key" of R92. -/
def Op.key : Op → Key
  | .lui => { opcode := 0b0110111 }
  | .auipc => { opcode := 0b0010111 }
  | .jal => { opcode := 0b1101111 }
  | .jalr => { opcode := 0b1100111, funct3 := some 0b000 }
  | .beq => { opcode := 0b1100011, funct3 := some 0b000 }
  | .bne => { opcode := 0b1100011, funct3 := some 0b001 }
  | .blt => { opcode := 0b1100011, funct3 := some 0b100 }
  | .bge => { opcode := 0b1100011, funct3 := some 0b101 }
  | .bltu => { opcode := 0b1100011, funct3 := some 0b110 }
  | .bgeu => { opcode := 0b1100011, funct3 := some 0b111 }
  | .lb => { opcode := 0b0000011, funct3 := some 0b000 }
  | .lh => { opcode := 0b0000011, funct3 := some 0b001 }
  | .lw => { opcode := 0b0000011, funct3 := some 0b010 }
  | .lbu => { opcode := 0b0000011, funct3 := some 0b100 }
  | .lhu => { opcode := 0b0000011, funct3 := some 0b101 }
  | .sb => { opcode := 0b0100011, funct3 := some 0b000 }
  | .sh => { opcode := 0b0100011, funct3 := some 0b001 }
  | .sw => { opcode := 0b0100011, funct3 := some 0b010 }
  | .addi => { opcode := 0b0010011, funct3 := some 0b000 }
  | .slti => { opcode := 0b0010011, funct3 := some 0b010 }
  | .sltiu => { opcode := 0b0010011, funct3 := some 0b011 }
  | .xori => { opcode := 0b0010011, funct3 := some 0b100 }
  | .ori => { opcode := 0b0010011, funct3 := some 0b110 }
  | .andi => { opcode := 0b0010011, funct3 := some 0b111 }
  | .slli => { opcode := 0b0010011, funct3 := some 0b001, funct7 := some 0b0000000 }
  | .srli => { opcode := 0b0010011, funct3 := some 0b101, funct7 := some 0b0000000 }
  | .srai => { opcode := 0b0010011, funct3 := some 0b101, funct7 := some 0b0100000 }
  | .add => { opcode := 0b0110011, funct3 := some 0b000, funct7 := some 0b0000000 }
  | .sub => { opcode := 0b0110011, funct3 := some 0b000, funct7 := some 0b0100000 }
  | .sll => { opcode := 0b0110011, funct3 := some 0b001, funct7 := some 0b0000000 }
  | .slt => { opcode := 0b0110011, funct3 := some 0b010, funct7 := some 0b0000000 }
  | .sltu => { opcode := 0b0110011, funct3 := some 0b011, funct7 := some 0b0000000 }
  | .xor => { opcode := 0b0110011, funct3 := some 0b100, funct7 := some 0b0000000 }
  | .srl => { opcode := 0b0110011, funct3 := some 0b101, funct7 := some 0b0000000 }
  | .sra => { opcode := 0b0110011, funct3 := some 0b101, funct7 := some 0b0100000 }
  | .or => { opcode := 0b0110011, funct3 := some 0b110, funct7 := some 0b0000000 }
  | .and => { opcode := 0b0110011, funct3 := some 0b111, funct7 := some 0b0000000 }
  | .fence => { opcode := 0b0001111, funct3 := some 0b000 }
  | .ecall => { opcode := 0b1110011, funct3 := some 0b000, funct12 := some 0b000000000000 }
  | .ebreak => { opcode := 0b1110011, funct3 := some 0b000, funct12 := some 0b000000000001 }
  | .mul => { opcode := 0b0110011, funct3 := some 0b000, funct7 := some 0b0000001 }
  | .mulh => { opcode := 0b0110011, funct3 := some 0b001, funct7 := some 0b0000001 }
  | .mulhsu => { opcode := 0b0110011, funct3 := some 0b010, funct7 := some 0b0000001 }
  | .mulhu => { opcode := 0b0110011, funct3 := some 0b011, funct7 := some 0b0000001 }
  | .div => { opcode := 0b0110011, funct3 := some 0b100, funct7 := some 0b0000001 }
  | .divu => { opcode := 0b0110011, funct3 := some 0b101, funct7 := some 0b0000001 }
  | .rem => { opcode := 0b0110011, funct3 := some 0b110, funct7 := some 0b0000001 }
  | .remu => { opcode := 0b0110011, funct3 := some 0b111, funct7 := some 0b0000001 }

/-- The column "match" of R92. -/
def Op.matchValue : Op → Word
  | .lui => 0x00000037#32
  | .auipc => 0x00000017#32
  | .jal => 0x0000006F#32
  | .jalr => 0x00000067#32
  | .beq => 0x00000063#32
  | .bne => 0x00001063#32
  | .blt => 0x00004063#32
  | .bge => 0x00005063#32
  | .bltu => 0x00006063#32
  | .bgeu => 0x00007063#32
  | .lb => 0x00000003#32
  | .lh => 0x00001003#32
  | .lw => 0x00002003#32
  | .lbu => 0x00004003#32
  | .lhu => 0x00005003#32
  | .sb => 0x00000023#32
  | .sh => 0x00001023#32
  | .sw => 0x00002023#32
  | .addi => 0x00000013#32
  | .slti => 0x00002013#32
  | .sltiu => 0x00003013#32
  | .xori => 0x00004013#32
  | .ori => 0x00006013#32
  | .andi => 0x00007013#32
  | .slli => 0x00001013#32
  | .srli => 0x00005013#32
  | .srai => 0x40005013#32
  | .add => 0x00000033#32
  | .sub => 0x40000033#32
  | .sll => 0x00001033#32
  | .slt => 0x00002033#32
  | .sltu => 0x00003033#32
  | .xor => 0x00004033#32
  | .srl => 0x00005033#32
  | .sra => 0x40005033#32
  | .or => 0x00006033#32
  | .and => 0x00007033#32
  | .fence => 0x0000000F#32
  | .ecall => 0x00000073#32
  | .ebreak => 0x00100073#32
  | .mul => 0x02000033#32
  | .mulh => 0x02001033#32
  | .mulhsu => 0x02002033#32
  | .mulhu => 0x02003033#32
  | .div => 0x02004033#32
  | .divu => 0x02005033#32
  | .rem => 0x02006033#32
  | .remu => 0x02007033#32

/-- The column "mask" of R92. -/
def Op.mask : Op → Word
  | .lui | .auipc | .jal => 0x0000007F#32
  | .jalr | .beq | .bne | .blt | .bge | .bltu | .bgeu | .lb | .lh | .lw
  | .lbu | .lhu | .sb | .sh | .sw | .addi | .slti | .sltiu | .xori | .ori
  | .andi | .fence => 0x0000707F#32
  | .slli | .srli | .srai | .add | .sub | .sll | .slt | .sltu | .xor | .srl
  | .sra | .or | .and | .mul | .mulh | .mulhsu | .mulhu | .div | .divu | .rem
  | .remu => 0xFE00707F#32
  | .ecall | .ebreak => 0xFFF0707F#32

/-- The mnemonic of a behavior, as R92 and spec/opcode_table.json spell it. -/
def Op.mnemonic : Op → String
  | .lui => "lui"
  | .auipc => "auipc"
  | .jal => "jal"
  | .jalr => "jalr"
  | .beq => "beq"
  | .bne => "bne"
  | .blt => "blt"
  | .bge => "bge"
  | .bltu => "bltu"
  | .bgeu => "bgeu"
  | .lb => "lb"
  | .lh => "lh"
  | .lw => "lw"
  | .lbu => "lbu"
  | .lhu => "lhu"
  | .sb => "sb"
  | .sh => "sh"
  | .sw => "sw"
  | .addi => "addi"
  | .slti => "slti"
  | .sltiu => "sltiu"
  | .xori => "xori"
  | .ori => "ori"
  | .andi => "andi"
  | .slli => "slli"
  | .srli => "srli"
  | .srai => "srai"
  | .add => "add"
  | .sub => "sub"
  | .sll => "sll"
  | .slt => "slt"
  | .sltu => "sltu"
  | .xor => "xor"
  | .srl => "srl"
  | .sra => "sra"
  | .or => "or"
  | .and => "and"
  | .fence => "fence"
  | .ecall => "ecall"
  | .ebreak => "ebreak"
  | .mul => "mul"
  | .mulh => "mulh"
  | .mulhsu => "mulhsu"
  | .mulhu => "mulhu"
  | .div => "div"
  | .divu => "divu"
  | .rem => "rem"
  | .remu => "remu"

/-- `disassemble(word)` of a behavior: its catalog mnemonic, which is fixed, and then the operand text, which
is free (R102, decision D18; log 16). -/
def Op.disassemble (op : Op) (w : Word) : String := op.mnemonic ++ Config.operandText op.mnemonic w

/-- The behaviors of an extension (R93; decision D10 puts fence and ebreak in BASE; log 11). DESIGN CHOICE
(log 26): their order is that of R92's rows, since R93's "order of the source's table" is not printed in the
spec; no result depends on it. -/
def Ext.behaviors : Ext → List Op
  | .base => [.lui, .auipc, .jal, .jalr, .beq, .bne, .blt, .bge, .bltu, .bgeu, .lb, .lh, .lw,
      .lbu, .lhu, .sb, .sh, .sw, .addi, .slti, .sltiu, .xori, .ori, .andi, .slli, .srli, .srai,
      .add, .sub, .sll, .slt, .sltu, .xor, .srl, .sra, .or, .and, .fence, .ebreak]
  | .muldiv => [.mul, .mulh, .mulhsu, .mulhu, .div, .divu, .rem, .remu]
  | .envcall => [.ecall]

/-- The extension a behavior belongs to (column "extension" of R92). -/
def Op.ext : Op → Ext
  | .lui | .auipc | .jal | .jalr | .beq | .bne | .blt | .bge | .bltu | .bgeu
  | .lb | .lh | .lw | .lbu | .lhu | .sb | .sh | .sw | .addi | .slti
  | .sltiu | .xori | .ori | .andi | .slli | .srli | .srai | .add | .sub | .sll
  | .slt | .sltu | .xor | .srl | .sra | .or | .and | .fence | .ebreak => .base
  | .ecall => .envcall
  | .mul | .mulh | .mulhsu | .mulhu | .div | .divu | .rem | .remu => .muldiv

/-- The catalog: the behaviors of each listed extension, in order, with repeats (R33, R94). -/
def catalog (exts : List Ext) : List Op := exts.flatMap Ext.behaviors

/-- The behavior's instruction, with the operands its format takes from the fields (R90). -/
def Op.instr (f : DecodedFields) : Op → Instr
  | .lui => .lui f.rd f.immU
  | .auipc => .auipc f.rd f.immU
  | .jal => .jal f.rd f.immJ
  | .jalr => .jalr f.rd f.rs1 f.immI
  | .beq => .beq f.rs1 f.rs2 f.immB
  | .bne => .bne f.rs1 f.rs2 f.immB
  | .blt => .blt f.rs1 f.rs2 f.immB
  | .bge => .bge f.rs1 f.rs2 f.immB
  | .bltu => .bltu f.rs1 f.rs2 f.immB
  | .bgeu => .bgeu f.rs1 f.rs2 f.immB
  | .lb => .lb f.rd f.rs1 f.immI
  | .lh => .lh f.rd f.rs1 f.immI
  | .lw => .lw f.rd f.rs1 f.immI
  | .lbu => .lbu f.rd f.rs1 f.immI
  | .lhu => .lhu f.rd f.rs1 f.immI
  | .sb => .sb f.rs1 f.rs2 f.immS
  | .sh => .sh f.rs1 f.rs2 f.immS
  | .sw => .sw f.rs1 f.rs2 f.immS
  | .addi => .addi f.rd f.rs1 f.immI
  | .slti => .slti f.rd f.rs1 f.immI
  | .sltiu => .sltiu f.rd f.rs1 f.immI
  | .xori => .xori f.rd f.rs1 f.immI
  | .ori => .ori f.rd f.rs1 f.immI
  | .andi => .andi f.rd f.rs1 f.immI
  | .slli => .slli f.rd f.rs1 f.shamt
  | .srli => .srli f.rd f.rs1 f.shamt
  | .srai => .srai f.rd f.rs1 f.shamt
  | .add => .add f.rd f.rs1 f.rs2
  | .sub => .sub f.rd f.rs1 f.rs2
  | .sll => .sll f.rd f.rs1 f.rs2
  | .slt => .slt f.rd f.rs1 f.rs2
  | .sltu => .sltu f.rd f.rs1 f.rs2
  | .xor => .xor f.rd f.rs1 f.rs2
  | .srl => .srl f.rd f.rs1 f.rs2
  | .sra => .sra f.rd f.rs1 f.rs2
  | .or => .or f.rd f.rs1 f.rs2
  | .and => .and f.rd f.rs1 f.rs2
  | .fence => .fence f.rd f.rs1 f.immI
  | .ecall => .ecall f.rd f.rs1
  | .ebreak => .ebreak f.rd f.rs1
  | .mul => .mul f.rd f.rs1 f.rs2
  | .mulh => .mulh f.rd f.rs1 f.rs2
  | .mulhsu => .mulhsu f.rd f.rs1 f.rs2
  | .mulhu => .mulhu f.rd f.rs1 f.rs2
  | .div => .div f.rd f.rs1 f.rs2
  | .divu => .divu f.rd f.rs1 f.rs2
  | .rem => .rem f.rd f.rs1 f.rs2
  | .remu => .remu f.rd f.rs1 f.rs2

/-! ### Dispatch (R95) -/

/-- What dispatch finds for a word: no behavior, exactly one, or several. -/
inductive Dispatch where
  | unimplemented
  | found (op : Op)
  | conflict
  deriving DecidableEq, Repr

/-- The catalog behaviors whose predicate holds for the word, counted over the whole catalog (R95). -/
def matching (exts : List Ext) (w : Word) : List Op :=
  (catalog exts).filter fun op => op.key.matches (decodeFields w)

/-- Dispatch by the number of matches (R95). -/
def dispatch (exts : List Ext) (w : Word) : Dispatch :=
  match matching exts w with
  | [] => .unimplemented
  | [op] => .found op
  | _ :: _ :: _ => .conflict

/-! ### The decoder -/

/-- Why bytes or a word are not an instruction of the loaded extensions. -/
inductive DecodeError where
  /-- fewer than the 4 bytes of an instruction (R80, R81) -/
  | tooFewBytes
  /-- no behavior of the catalog matches (R95, R97) -/
  | unimplemented (w : Word)
  /-- two or more behaviors match (R95) -/
  | conflict (w : Word)
  deriving DecidableEq, Repr

/-- The instruction of a word under the loaded extensions, or why there is none. -/
def decodeWith (exts : List Ext) (w : Word) : Except DecodeError Instr :=
  match dispatch exts w with
  | .unimplemented => .error (.unimplemented w)
  | .found op => .ok (op.instr (decodeFields w))
  | .conflict => .error (.conflict w)

/-- Each extension once: the full configuration. -/
def fullExtensions : List Ext := [.base, .muldiv, .envcall]

/-- The instruction of a word under the full configuration. -/
def decode (w : Word) : Option Instr := (decodeWith fullExtensions w).toOption

/-- Little-endian assembly: the first byte is the least significant (20_memory.md R52, R54). -/
def ofBytes : List Byte → Word
  | [] => 0#32
  | b :: bs => b.setWidth 32 ||| (ofBytes bs <<< 8)

/-- Byte `i` of a pattern: bits [8i+7:8i] (20_memory.md R53). -/
def byteOf (v : Word) (i : Nat) : Byte := v.extractLsb' (8 * i) 8

/-- The low `n` bytes of a pattern, least significant first (20_memory.md R53, R54). -/
def toBytes (n : Nat) (v : Word) : List Byte := (List.range n).map (byteOf v)

/-- Decode the first instruction of a byte stream, with the bytes after it: total on any bytes, every
instruction being 4 bytes long (R80). -/
def decodeBytes (exts : List Ext) : List Byte → Except DecodeError (Instr × List Byte)
  | b0 :: b1 :: b2 :: b3 :: rest => (decodeWith exts (ofBytes [b0, b1, b2, b3])).map (·, rest)
  | _ => .error .tooFewBytes

/-- The host's entry: the instruction of a word of spec/opcode_table.json's numbering, laid out as the
four bytes the hardware stores, least significant first. -/
def decodeTableWord (nbits w : Nat) : Option Instr :=
  ((decodeBytes fullExtensions (toBytes 4 (BitVec.ofNat 32 (w % 2 ^ nbits)))).map Prod.fst).toOption

/-! ### The encoder (the format table of R90) -/

/-- Format R, and I-shift with the shift amount in place of rs2 (R90). -/
def encodeR (funct7 : BitVec 7) (rs2 rs1 : Fin 32) (funct3 : BitVec 3) (rd : Reg) (opcode : BitVec 7) : Word :=
  funct7 ++ toField rs2 ++ toField rs1 ++ funct3 ++ toField rd ++ opcode

/-- Format I (R90). -/
def encodeI (imm : BitVec 12) (rs1 : Reg) (funct3 : BitVec 3) (rd : Reg) (opcode : BitVec 7) : Word :=
  imm ++ toField rs1 ++ funct3 ++ toField rd ++ opcode

/-- Format S (R90). -/
def encodeS (imm : BitVec 12) (rs2 rs1 : Reg) (funct3 : BitVec 3) (opcode : BitVec 7) : Word :=
  imm.extractLsb 11 5 ++ toField rs2 ++ toField rs1 ++ funct3 ++ imm.extractLsb 4 0 ++ opcode

/-- Format B (R90): bit 0 of the offset is not stored. -/
def encodeB (offset : BitVec 13) (rs2 rs1 : Reg) (funct3 : BitVec 3) (opcode : BitVec 7) : Word :=
  offset.extractLsb 12 12 ++ offset.extractLsb 10 5 ++ toField rs2 ++ toField rs1 ++ funct3
    ++ offset.extractLsb 4 1 ++ offset.extractLsb 11 11 ++ opcode

/-- Format U (R90). -/
def encodeU (imm20 : BitVec 20) (rd : Reg) (opcode : BitVec 7) : Word :=
  imm20 ++ toField rd ++ opcode

/-- Format J (R90): bit 0 of the offset is not stored. -/
def encodeJ (offset : BitVec 21) (rd : Reg) (opcode : BitVec 7) : Word :=
  offset.extractLsb 20 20 ++ offset.extractLsb 10 1 ++ offset.extractLsb 11 11 ++ offset.extractLsb 19 12
    ++ toField rd ++ opcode

/-- The word of an instruction (R90 with the code values of R92). -/
def encode : Instr → Word
  | .lui rd imm20 => encodeU imm20 rd 0b0110111
  | .auipc rd imm20 => encodeU imm20 rd 0b0010111
  | .jal rd offset => encodeJ offset rd 0b1101111
  | .jalr rd rs1 imm => encodeI imm rs1 0b000 rd 0b1100111
  | .beq rs1 rs2 offset => encodeB offset rs2 rs1 0b000 0b1100011
  | .bne rs1 rs2 offset => encodeB offset rs2 rs1 0b001 0b1100011
  | .blt rs1 rs2 offset => encodeB offset rs2 rs1 0b100 0b1100011
  | .bge rs1 rs2 offset => encodeB offset rs2 rs1 0b101 0b1100011
  | .bltu rs1 rs2 offset => encodeB offset rs2 rs1 0b110 0b1100011
  | .bgeu rs1 rs2 offset => encodeB offset rs2 rs1 0b111 0b1100011
  | .lb rd rs1 imm => encodeI imm rs1 0b000 rd 0b0000011
  | .lh rd rs1 imm => encodeI imm rs1 0b001 rd 0b0000011
  | .lw rd rs1 imm => encodeI imm rs1 0b010 rd 0b0000011
  | .lbu rd rs1 imm => encodeI imm rs1 0b100 rd 0b0000011
  | .lhu rd rs1 imm => encodeI imm rs1 0b101 rd 0b0000011
  | .sb rs1 rs2 imm => encodeS imm rs2 rs1 0b000 0b0100011
  | .sh rs1 rs2 imm => encodeS imm rs2 rs1 0b001 0b0100011
  | .sw rs1 rs2 imm => encodeS imm rs2 rs1 0b010 0b0100011
  | .addi rd rs1 imm => encodeI imm rs1 0b000 rd 0b0010011
  | .slti rd rs1 imm => encodeI imm rs1 0b010 rd 0b0010011
  | .sltiu rd rs1 imm => encodeI imm rs1 0b011 rd 0b0010011
  | .xori rd rs1 imm => encodeI imm rs1 0b100 rd 0b0010011
  | .ori rd rs1 imm => encodeI imm rs1 0b110 rd 0b0010011
  | .andi rd rs1 imm => encodeI imm rs1 0b111 rd 0b0010011
  | .slli rd rs1 shamt => encodeR 0b0000000 shamt rs1 0b001 rd 0b0010011
  | .srli rd rs1 shamt => encodeR 0b0000000 shamt rs1 0b101 rd 0b0010011
  | .srai rd rs1 shamt => encodeR 0b0100000 shamt rs1 0b101 rd 0b0010011
  | .add rd rs1 rs2 => encodeR 0b0000000 rs2 rs1 0b000 rd 0b0110011
  | .sub rd rs1 rs2 => encodeR 0b0100000 rs2 rs1 0b000 rd 0b0110011
  | .sll rd rs1 rs2 => encodeR 0b0000000 rs2 rs1 0b001 rd 0b0110011
  | .slt rd rs1 rs2 => encodeR 0b0000000 rs2 rs1 0b010 rd 0b0110011
  | .sltu rd rs1 rs2 => encodeR 0b0000000 rs2 rs1 0b011 rd 0b0110011
  | .xor rd rs1 rs2 => encodeR 0b0000000 rs2 rs1 0b100 rd 0b0110011
  | .srl rd rs1 rs2 => encodeR 0b0000000 rs2 rs1 0b101 rd 0b0110011
  | .sra rd rs1 rs2 => encodeR 0b0100000 rs2 rs1 0b101 rd 0b0110011
  | .or rd rs1 rs2 => encodeR 0b0000000 rs2 rs1 0b110 rd 0b0110011
  | .and rd rs1 rs2 => encodeR 0b0000000 rs2 rs1 0b111 rd 0b0110011
  | .fence rd rs1 imm => encodeI imm rs1 0b000 rd 0b0001111
  | .ecall rd rs1 => encodeI 0b000000000000 rs1 0b000 rd 0b1110011
  | .ebreak rd rs1 => encodeI 0b000000000001 rs1 0b000 rd 0b1110011
  | .mul rd rs1 rs2 => encodeR 0b0000001 rs2 rs1 0b000 rd 0b0110011
  | .mulh rd rs1 rs2 => encodeR 0b0000001 rs2 rs1 0b001 rd 0b0110011
  | .mulhsu rd rs1 rs2 => encodeR 0b0000001 rs2 rs1 0b010 rd 0b0110011
  | .mulhu rd rs1 rs2 => encodeR 0b0000001 rs2 rs1 0b011 rd 0b0110011
  | .div rd rs1 rs2 => encodeR 0b0000001 rs2 rs1 0b100 rd 0b0110011
  | .divu rd rs1 rs2 => encodeR 0b0000001 rs2 rs1 0b101 rd 0b0110011
  | .rem rd rs1 rs2 => encodeR 0b0000001 rs2 rs1 0b110 rd 0b0110011
  | .remu rd rs1 rs2 => encodeR 0b0000001 rs2 rs1 0b111 rd 0b0110011

/-- The behavior that an instruction term belongs to. -/
def Instr.op : Instr → Op
  | .lui _ _ => .lui
  | .auipc _ _ => .auipc
  | .jal _ _ => .jal
  | .jalr _ _ _ => .jalr
  | .beq _ _ _ => .beq
  | .bne _ _ _ => .bne
  | .blt _ _ _ => .blt
  | .bge _ _ _ => .bge
  | .bltu _ _ _ => .bltu
  | .bgeu _ _ _ => .bgeu
  | .lb _ _ _ => .lb
  | .lh _ _ _ => .lh
  | .lw _ _ _ => .lw
  | .lbu _ _ _ => .lbu
  | .lhu _ _ _ => .lhu
  | .sb _ _ _ => .sb
  | .sh _ _ _ => .sh
  | .sw _ _ _ => .sw
  | .addi _ _ _ => .addi
  | .slti _ _ _ => .slti
  | .sltiu _ _ _ => .sltiu
  | .xori _ _ _ => .xori
  | .ori _ _ _ => .ori
  | .andi _ _ _ => .andi
  | .slli _ _ _ => .slli
  | .srli _ _ _ => .srli
  | .srai _ _ _ => .srai
  | .add _ _ _ => .add
  | .sub _ _ _ => .sub
  | .sll _ _ _ => .sll
  | .slt _ _ _ => .slt
  | .sltu _ _ _ => .sltu
  | .xor _ _ _ => .xor
  | .srl _ _ _ => .srl
  | .sra _ _ _ => .sra
  | .or _ _ _ => .or
  | .and _ _ _ => .and
  | .fence _ _ _ => .fence
  | .ecall _ _ => .ecall
  | .ebreak _ _ => .ebreak
  | .mul _ _ _ => .mul
  | .mulh _ _ _ => .mulh
  | .mulhsu _ _ _ => .mulhsu
  | .mulhu _ _ _ => .mulhu
  | .div _ _ _ => .div
  | .divu _ _ _ => .divu
  | .rem _ _ _ => .rem
  | .remu _ _ _ => .remu

end Sys2Proof
end

