-- ==== Sys2Proof/Machine/Instance.lean ====
section
/-! DEFINITION. The configuration that State.reset stands for. MEM_SIZE and EXT_LIST are arguments of
construct (spec/00_scope.md R6); the spec gives no default (91_not_in_source.md N3). -/

namespace Sys2Proof.Machine

/-- DESIGN CHOICE (log 1, unsafe): MEM_SIZE of State.reset, the one 95_test_vectors.md uses unless it
says otherwise. Statements quantify over every MEM_SIZE. -/
def resetMemSize : Nat := 0x00010000

/-- DESIGN CHOICE (log 1, unsafe): EXT_LIST of State.reset, each extension once, as in
95_test_vectors.md. Statements quantify over every list. -/
def resetExtList : List Ext := [.base, .muldiv, .envcall]

end Sys2Proof.Machine
end

