-- ==== Sys2Proof/Machine/Memory.lean ====
section
/-! DEFINITION. Memory as plain data: (address, byte) pairs in one canonical form, with the reads and
writes of bytes that every access is built from (spec/20_memory.md R50, R52, R53; log 2). Bounds are
checked where MEM_SIZE is known, in Machine/Ops.lean. -/

namespace Sys2Proof.Machine

/-- The bytes that differ from `Memory.unlisted`, by rising address. -/
abbrev Memory := List Host.Cell

/-- What an address that is not listed reads as: memory is zeroed at construct and reset
(10_state.md R36). -/
def Memory.unlisted : Byte := 0#8

/-- The canonical form: addresses strictly rising, no listed byte equal to the unlisted one. -/
abbrev Memory.wf (m : Memory) : Prop :=
  m.Pairwise (fun c d => c.1 < d.1) ∧ ∀ c ∈ m, c.2 ≠ Memory.unlisted

/-- The byte at an address (R52). -/
def Memory.read : Memory → Nat → Byte
  | [], _ => Memory.unlisted
  | (b, v) :: m, a => if b = a then v else Memory.read m a

/-- Every listed cell but the one at an address. -/
def Memory.erase (m : Memory) (a : Nat) : Memory := m.filter fun c => c.1 != a

/-- List a byte before the first higher address. -/
def Memory.insertCell (a : Nat) (v : Byte) : Memory → Memory
  | [] => [(a, v)]
  | c :: m => if a < c.1 then (a, v) :: c :: m else c :: Memory.insertCell a v m

/-- Store one byte, keeping the canonical form (R53). -/
def Memory.write (m : Memory) (a : Nat) (v : Byte) : Memory :=
  if v = Memory.unlisted then m.erase a else (m.erase a).insertCell a v

/-- The `n` bytes from an address up, without wrap (R51, R52). -/
def Memory.readBytes (m : Memory) (a n : Nat) : List Byte := (List.range n).map fun i => m.read (a + i)

/-- Store bytes at rising addresses, one after the other (R53, R61). -/
def Memory.writeBytes (m : Memory) (a : Nat) : List Byte → Memory
  | [] => m
  | b :: bs => Memory.writeBytes (m.write a b) (a + 1) bs

end Sys2Proof.Machine
end

