-- ==== Sys2Proof/Machine/State.lean ====
section
/-! DEFINITION. The state of a constructed CORE, its error outcomes and its reset state
(spec/10_state.md R20 to R38, 60_exceptions.md R241, R242). -/

namespace Sys2Proof.Machine

/-- Everything the spec gives a constructed CORE. The catalog (R33) is a function of `extList` and the
engine state READY or HALTED (R30) a function of `halt`; neither is stored twice (log 12). -/
structure State where
  /-- x0 to x31 (R20) -/
  regs : Vector Word 32
  /-- the program counter, the address of the instruction to execute (R26) -/
  pc : Word
  /-- the sticky halt flag (R29) -/
  halt : Bool
  /-- memory bytes 0 to MEM_SIZE - 1 (R34) -/
  mem : Memory
  /-- MEM_SIZE in bytes, fixed at construct (R31) -/
  memSize : Nat
  /-- EXT_LIST, fixed at construct (R31) -/
  extList : List Ext
  /-- the print events, oldest first, each a signed 32-bit integer (60_exceptions.md R254) -/
  sink : List Int
  /-- the model's own (log 8): how many STORE_FAULT_BYTES draws have been taken -/
  storeDraws : Nat
  deriving DecidableEq, Repr

/-- The access kind of a BoundsError (60_exceptions.md R242). -/
inductive AccessKind where
  | fetch
  | load
  | store
  | image
  | hostRead
  deriving DecidableEq, Repr

/-- The memory size that a host gives construct: an integer, or a value that is none, named by a text
that stands for it (70_reset_and_hazards.md R280; log 5). -/
inductive SizeArg where
  | int (n : Int)
  | notInteger (text : String)
  deriving DecidableEq, Repr

/-- The error outcomes of the commands, codes 1 to 6 of R241, with the payloads of R242. Each is the
spec's own error, returned to the host; stopping is what the spec says the command does, so each is safe. -/
inductive Fault where
  /-- construct: the size is no integer, or one outside 1 .. 2^32 (70_reset_and_hazards.md R280). Safe. -/
  | configMemSize (size : SizeArg)
  /-- construct: the entry at this index is not BASE, MULDIV or ENVCALL (R280). Safe. -/
  | configExtension (index : Nat)
  /-- step: the word at pc matches two or more catalog behaviors (30_encoding.md R95). Safe. -/
  | dispatchConflict (word pc : Word)
  /-- step, loadImage, readMem: an access of `count` bytes at `address` leaves memory (20_memory.md R51). Safe. -/
  | bounds (kind : AccessKind) (address count : Nat)
  /-- step: the word at pc matches no catalog behavior (30_encoding.md R95, R97). Safe. -/
  | unimplementedInstruction (word pc : Word)
  /-- step: an ecall whose x17 is neither 1 nor 10 (46_environment_call.md R233). Safe. -/
  | unimplementedSyscall (callNumber pc word : Word)
  deriving DecidableEq, Repr

/-- A refusal: the model has no meaning. No arm of exec refuses today. -/
inductive Refusal where
  /-- exec: an instruction that has no meaning yet, by its mnemonic. Safe. -/
  | notModelled (mnemonic : String)
  deriving DecidableEq, Repr

/-- The state right after construct (10_state.md R36): registers, pc and memory zero, not halted, no
event printed; the construct arguments are those of Machine/Instance.lean (log 1), and no draw has been
taken (log 8). -/
def State.reset : State where
  regs := Vector.replicate 32 0#32
  pc := 0x00000000#32
  halt := false
  mem := []
  memSize := resetMemSize
  extList := resetExtList
  sink := []
  storeDraws := 0

end Sys2Proof.Machine
end

