-- ==== Sys2Proof/Machine/Flags.lean ====
section
/-! DEFINITION. The one flag, halt (spec/10_state.md R28, R29), and the comparisons that stand in for
condition codes (00_scope.md R12). -/

namespace Sys2Proof.Machine

/-- `halt <- true`; no instruction clears it (R29). -/
def State.setHalt (s : State) : State := { s with halt := true }

/-- `a <s b` (00_scope.md R12). -/
def signedLess (a b : Word) : Bool := a.slt b

/-- `a <u b` (00_scope.md R12). -/
def unsignedLess (a b : Word) : Bool := a.ult b

end Sys2Proof.Machine
end

