-- ==== Sys2Proof/Machine/Operands.lean ====
section
/-! DEFINITION. How an instruction reads and writes its operands: registers with the hard-wired x0, the
32-bit patterns of the immediates, shift amounts and effective addresses (spec/10_state.md R20 to R24,
30_encoding.md R84 to R89, 20_memory.md R60). -/

namespace Sys2Proof.Machine

/-- `x[i]`: x0 always reads 0 (R22; log 3). -/
def State.readReg (s : State) (i : Reg) : Word := if i = 0 then 0#32 else s.regs[i.val]

/-- `x[i] <- v`: a write to x0 is discarded (R22), and no other register changes (R24). -/
def State.writeReg (s : State) (i : Reg) (v : Word) : State :=
  if i = 0 then s else { s with regs := s.regs.set i.val v }

/-- The engine's clamp `x[0] <- 0` at the end of a step (R22, 30_encoding.md R96). -/
def State.clampX0 (s : State) : State := { s with regs := s.regs.set 0 0#32 }

/-- `sext_N` into 32 bits (00_scope.md R11). -/
def sext {n : Nat} (v : BitVec n) : Word := v.signExtend 32

/-- `zext_N` into 32 bits (00_scope.md R11). -/
def zext {n : Nat} (v : BitVec n) : Word := v.setWidth 32

/-- `imm_u = (w[31:12], 12'b0)` (30_encoding.md R87). -/
def upperImmediate (imm20 : BitVec 20) : Word := imm20 ++ 0#12

/-- The shift amount of a register shift: only bits [4:0] count (40 R130). -/
def shiftAmount (v : Word) : Nat := (v &&& 31#32).toNat

/-- `EA = x[rs1] + imm` with 32-bit wrap (20_memory.md R60). -/
def State.effectiveAddress (s : State) (rs1 : Reg) (imm : BitVec 12) : Word := s.readReg rs1 + sext imm

/-- The register of the ecall call number, a7 (46_environment_call.md R230). -/
def callNumberReg : Reg := 17

/-- The register of the print argument, a0 (46_environment_call.md R232). -/
def printReg : Reg := 10

end Sys2Proof.Machine
end

