-- ==== Sys2Proof/Machine/Ops.lean ====
section
/-! DEFINITION. The operations that the meanings share: bounds-checked memory access, the pc, the print
sink, and the ways an instruction ends (spec/00_scope.md R13, 20_memory.md R51 to R53, 60_exceptions.md
R240 to R243, R254). -/

namespace Sys2Proof.Machine

/-- `raise`: the step ends in an error outcome. This is the whole of exception entry on this hardware:
there is no trap and no return from one (60_exceptions.md R240). -/
def raise (f : Fault) : Host.Outcome State Fault Refusal := .fault f

/-- An access of `n` bytes at `a` is in bounds exactly when `a + n <= MEM_SIZE`, without wrap (R51). -/
def State.inBounds (s : State) (a : Word) (n : Nat) : Bool := a.toNat + n ≤ s.memSize

/-- `MemRead`: `n` bytes, little-endian, or BoundsError (R52). -/
def State.memRead (s : State) (kind : AccessKind) (a : Word) (n : Nat) : Except Fault Word :=
  if s.inBounds a n then .ok (ofBytes (s.mem.readBytes a.toNat n)) else .error (.bounds kind a.toNat n)

/-- `MemWrite`: the low `8n` bits, little-endian, or BoundsError (R53). What a failing store leaves in
memory is `State.tornStore`. -/
def State.memWrite (s : State) (a : Word) (n : Nat) (v : Word) : Except Fault State :=
  if s.inBounds a n then .ok { s with mem := s.mem.writeBytes a.toNat (toBytes n v) }
  else .error (.bounds .store a.toNat n)

/-- One byte of a store that is partly in bounds: the new byte or the old one, as the draw has it
(R53, decision D7; log 7); a byte at or above MEM_SIZE does not exist. -/
def State.tornByte (s : State) (m : Memory) (a : Nat) (new : Byte) : Memory :=
  if a < s.memSize ∧ Config.storeFaultTakesNew s.storeDraws a = true then m.write a new else m

/-- The state after a store of `n` bytes that raised BoundsError: every in-bounds byte holds the
STORE_FAULT_BYTES draw, and nothing else is committed (R53, 60_exceptions.md R243; log 7). -/
def State.tornStore (s : State) (a : Word) (n : Nat) (v : Word) : State :=
  { s with
    mem := (List.range n).foldl (fun m i => s.tornByte m (a.toNat + i) (byteOf v i)) s.mem
    storeDraws := s.storeDraws + 1 }

/-- `pc <- target` (00_scope.md R13). -/
def State.setPc (s : State) (target : Word) : State := { s with pc := target }

/-- `pc + 4`, the address of the next instruction and the link value, with 32-bit wrap (10_state.md R27). -/
def State.nextPc (s : State) : Word := s.pc + 4#32

/-- `pc <- pc + 4`, which each non-branching, non-halting behavior does itself (10_state.md R26). -/
def State.advance (s : State) : State := s.setPc s.nextPc

/-- `emit(v)`: append one print event (60_exceptions.md R254). -/
def State.emit (s : State) (v : Int) : State := { s with sink := s.sink ++ [v] }

/-- `x[rd] <- v; pc <- pc + 4`: how every computational instruction ends (40 R120). -/
def retire (rd : Reg) (v : Word) (s : State) : Host.Outcome State Fault Refusal :=
  .next (s.writeReg rd v).advance

/-- `if taken: pc <- pc + imm_b else: pc <- pc + 4` (41 R150). -/
def branch (taken : Bool) (offset : BitVec 13) (s : State) : Host.Outcome State Fault Refusal :=
  .next (if taken then s.setPc (s.pc + sext offset) else s.advance)

/-- `x[rd] <- pc + 4; pc <- target`, the target computed before the link is written (41 R150, 10_state.md R23). -/
def jump (rd : Reg) (target : Word) (s : State) : Host.Outcome State Fault Refusal :=
  .next ((s.writeReg rd s.nextPc).setPc target)

/-- `v <- MemRead(ea, n); x[rd] <- extend(v); pc <- pc + 4` (43 R180). -/
def load (rd : Reg) (ea : Word) (n : Nat) (extend : Word → Word) (s : State) : Host.Outcome State Fault Refusal :=
  match s.memRead .load ea n with
  | .ok v => retire rd (extend v) s
  | .error f => raise f

/-- `MemWrite(ea, n, v); pc <- pc + 4` (43 R180). -/
def store (ea : Word) (n : Nat) (v : Word) (s : State) : Host.Outcome State Fault Refusal :=
  match s.memWrite ea n v with
  | .ok t => .next t.advance
  | .error f => raise f

end Sys2Proof.Machine
end

