-- ==== Sys2Proof/Machine/Arith.lean ====
section
/-! DEFINITION. Arithmetic, logic, shift and compare instructions (spec/40_arith_logic_compare.md R120 to R139). -/

namespace Sys2Proof.Machine

/-- R121 -/
def execAdd (rd rs1 rs2 : Reg) (s : State) : Host.Outcome State Fault Refusal :=
  retire rd (s.readReg rs1 + s.readReg rs2) s

/-- R122 -/
def execAddi (rd rs1 : Reg) (imm : BitVec 12) (s : State) : Host.Outcome State Fault Refusal :=
  retire rd (s.readReg rs1 + sext imm) s

/-- R123 -/
def execSub (rd rs1 rs2 : Reg) (s : State) : Host.Outcome State Fault Refusal :=
  retire rd (s.readReg rs1 - s.readReg rs2) s

/-- R124 -/
def execXor (rd rs1 rs2 : Reg) (s : State) : Host.Outcome State Fault Refusal :=
  retire rd (s.readReg rs1 ^^^ s.readReg rs2) s

/-- R125 -/
def execXori (rd rs1 : Reg) (imm : BitVec 12) (s : State) : Host.Outcome State Fault Refusal :=
  retire rd (s.readReg rs1 ^^^ sext imm) s

/-- R126 -/
def execOr (rd rs1 rs2 : Reg) (s : State) : Host.Outcome State Fault Refusal :=
  retire rd (s.readReg rs1 ||| s.readReg rs2) s

/-- R127 -/
def execOri (rd rs1 : Reg) (imm : BitVec 12) (s : State) : Host.Outcome State Fault Refusal :=
  retire rd (s.readReg rs1 ||| sext imm) s

/-- R128 -/
def execAnd (rd rs1 rs2 : Reg) (s : State) : Host.Outcome State Fault Refusal :=
  retire rd (s.readReg rs1 &&& s.readReg rs2) s

/-- R129 -/
def execAndi (rd rs1 : Reg) (imm : BitVec 12) (s : State) : Host.Outcome State Fault Refusal :=
  retire rd (s.readReg rs1 &&& sext imm) s

/-- R130 -/
def execSll (rd rs1 rs2 : Reg) (s : State) : Host.Outcome State Fault Refusal :=
  retire rd (s.readReg rs1 <<< shiftAmount (s.readReg rs2)) s

/-- R131 -/
def execSrl (rd rs1 rs2 : Reg) (s : State) : Host.Outcome State Fault Refusal :=
  retire rd (s.readReg rs1 >>> shiftAmount (s.readReg rs2)) s

/-- R132 (arithmetic by general knowledge, G15; log 10) -/
def execSra (rd rs1 rs2 : Reg) (s : State) : Host.Outcome State Fault Refusal :=
  retire rd ((s.readReg rs1).sshiftRight (shiftAmount (s.readReg rs2))) s

/-- R133 -/
def execSlli (rd rs1 : Reg) (shamt : Fin 32) (s : State) : Host.Outcome State Fault Refusal :=
  retire rd (s.readReg rs1 <<< shamt.val) s

/-- R134 -/
def execSrli (rd rs1 : Reg) (shamt : Fin 32) (s : State) : Host.Outcome State Fault Refusal :=
  retire rd (s.readReg rs1 >>> shamt.val) s

/-- R135 (arithmetic by general knowledge, G15; log 10) -/
def execSrai (rd rs1 : Reg) (shamt : Fin 32) (s : State) : Host.Outcome State Fault Refusal :=
  retire rd ((s.readReg rs1).sshiftRight shamt.val) s

/-- R136 -/
def execSlt (rd rs1 rs2 : Reg) (s : State) : Host.Outcome State Fault Refusal :=
  retire rd (bool2p (signedLess (s.readReg rs1) (s.readReg rs2))) s

/-- R137 -/
def execSlti (rd rs1 : Reg) (imm : BitVec 12) (s : State) : Host.Outcome State Fault Refusal :=
  retire rd (bool2p (signedLess (s.readReg rs1) (sext imm))) s

/-- R138 -/
def execSltu (rd rs1 rs2 : Reg) (s : State) : Host.Outcome State Fault Refusal :=
  retire rd (bool2p (unsignedLess (s.readReg rs1) (s.readReg rs2))) s

/-- R139: the immediate is sign-extended, then compared unsigned -/
def execSltiu (rd rs1 : Reg) (imm : BitVec 12) (s : State) : Host.Outcome State Fault Refusal :=
  retire rd (bool2p (unsignedLess (s.readReg rs1) (sext imm))) s

end Sys2Proof.Machine
end

