-- ==== Sys2Proof/Machine/Control.lean ====
section
/-! DEFINITION. Control transfer instructions (spec/41_control_transfer.md R150 to R158). -/

namespace Sys2Proof.Machine

/-- R151 -/
def execBeq (rs1 rs2 : Reg) (offset : BitVec 13) (s : State) : Host.Outcome State Fault Refusal :=
  branch (s.readReg rs1 == s.readReg rs2) offset s

/-- R152 -/
def execBne (rs1 rs2 : Reg) (offset : BitVec 13) (s : State) : Host.Outcome State Fault Refusal :=
  branch (s.readReg rs1 != s.readReg rs2) offset s

/-- R153 -/
def execBlt (rs1 rs2 : Reg) (offset : BitVec 13) (s : State) : Host.Outcome State Fault Refusal :=
  branch (signedLess (s.readReg rs1) (s.readReg rs2)) offset s

/-- R154 -/
def execBge (rs1 rs2 : Reg) (offset : BitVec 13) (s : State) : Host.Outcome State Fault Refusal :=
  branch (!signedLess (s.readReg rs1) (s.readReg rs2)) offset s

/-- R155 -/
def execBltu (rs1 rs2 : Reg) (offset : BitVec 13) (s : State) : Host.Outcome State Fault Refusal :=
  branch (unsignedLess (s.readReg rs1) (s.readReg rs2)) offset s

/-- R156 -/
def execBgeu (rs1 rs2 : Reg) (offset : BitVec 13) (s : State) : Host.Outcome State Fault Refusal :=
  branch (!unsignedLess (s.readReg rs1) (s.readReg rs2)) offset s

/-- R157 -/
def execJal (rd : Reg) (offset : BitVec 21) (s : State) : Host.Outcome State Fault Refusal :=
  jump rd (s.pc + sext offset) s

/-- R158: bit 0 of the target is cleared, and x[rs1] is read before the link is written -/
def execJalr (rd rs1 : Reg) (imm : BitVec 12) (s : State) : Host.Outcome State Fault Refusal :=
  jump rd ((s.readReg rs1 + sext imm) &&& 0xFFFFFFFE#32) s

end Sys2Proof.Machine
end

