-- ==== Sys2Proof/Machine/LoadStore.lean ====
section
/-! DEFINITION. Load and store instructions (spec/43_load_store.md R180 to R188). -/

namespace Sys2Proof.Machine

/-- R181 -/
def execLb (rd rs1 : Reg) (imm : BitVec 12) (s : State) : Host.Outcome State Fault Refusal :=
  load rd (s.effectiveAddress rs1 imm) 1 (fun v => sext (v.setWidth 8)) s

/-- R182 -/
def execLbu (rd rs1 : Reg) (imm : BitVec 12) (s : State) : Host.Outcome State Fault Refusal :=
  load rd (s.effectiveAddress rs1 imm) 1 (fun v => zext (v.setWidth 8)) s

/-- R183 -/
def execLh (rd rs1 : Reg) (imm : BitVec 12) (s : State) : Host.Outcome State Fault Refusal :=
  load rd (s.effectiveAddress rs1 imm) 2 (fun v => sext (v.setWidth 16)) s

/-- R184 -/
def execLhu (rd rs1 : Reg) (imm : BitVec 12) (s : State) : Host.Outcome State Fault Refusal :=
  load rd (s.effectiveAddress rs1 imm) 2 (fun v => zext (v.setWidth 16)) s

/-- R185 -/
def execLw (rd rs1 : Reg) (imm : BitVec 12) (s : State) : Host.Outcome State Fault Refusal :=
  load rd (s.effectiveAddress rs1 imm) 4 (fun v => v) s

/-- R186 -/
def execSb (rs1 rs2 : Reg) (imm : BitVec 12) (s : State) : Host.Outcome State Fault Refusal :=
  store (s.effectiveAddress rs1 imm) 1 (s.readReg rs2) s

/-- R187 -/
def execSh (rs1 rs2 : Reg) (imm : BitVec 12) (s : State) : Host.Outcome State Fault Refusal :=
  store (s.effectiveAddress rs1 imm) 2 (s.readReg rs2) s

/-- R188 -/
def execSw (rs1 rs2 : Reg) (imm : BitVec 12) (s : State) : Host.Outcome State Fault Refusal :=
  store (s.effectiveAddress rs1 imm) 4 (s.readReg rs2) s

/-- The address, width and data of a store instruction; none for every other instruction. -/
def storeParts (s : State) : Instr → Option (Word × Nat × Word)
  | .sb rs1 rs2 imm => some (s.effectiveAddress rs1 imm, 1, s.readReg rs2)
  | .sh rs1 rs2 imm => some (s.effectiveAddress rs1 imm, 2, s.readReg rs2)
  | .sw rs1 rs2 imm => some (s.effectiveAddress rs1 imm, 4, s.readReg rs2)
  | .lui _ _ | .auipc _ _ | .jal _ _ | .jalr _ _ _ => none
  | .beq _ _ _ | .bne _ _ _ | .blt _ _ _ | .bge _ _ _ | .bltu _ _ _ | .bgeu _ _ _ => none
  | .lb _ _ _ | .lh _ _ _ | .lw _ _ _ | .lbu _ _ _ | .lhu _ _ _ => none
  | .addi _ _ _ | .slti _ _ _ | .sltiu _ _ _ | .xori _ _ _ | .ori _ _ _ | .andi _ _ _ => none
  | .slli _ _ _ | .srli _ _ _ | .srai _ _ _ => none
  | .add _ _ _ | .sub _ _ _ | .sll _ _ _ | .slt _ _ _ | .sltu _ _ _ => none
  | .xor _ _ _ | .srl _ _ _ | .sra _ _ _ | .or _ _ _ | .and _ _ _ => none
  | .fence _ _ _ | .ecall _ _ | .ebreak _ _ => none
  | .mul _ _ _ | .mulh _ _ _ | .mulhsu _ _ _ | .mulhu _ _ _ => none
  | .div _ _ _ | .divu _ _ _ | .rem _ _ _ | .remu _ _ _ => none

end Sys2Proof.Machine
end

