-- ==== Sys2Proof/Machine/MulDiv.lean ====
section
/-! DEFINITION. Multiply and divide instructions (spec/45_multiply_divide.md R210 to R218): exact integer
arithmetic on the named views, narrowed by `wrap32`. -/

namespace Sys2Proof.Machine

/-- The high word of an exact product: `wrap32(floor(P / 2^32))` (R210). `Int` division by a positive
number rounds down. -/
def highWord (product : Int) : Word := wrap32 (product / 2 ^ 32)

/-- R211 -/
def execMul (rd rs1 rs2 : Reg) (s : State) : Host.Outcome State Fault Refusal :=
  retire rd (wrap32 ((s.readReg rs1).toInt * (s.readReg rs2).toInt)) s

/-- R212 (signed by signed, by general knowledge, G18; log 10) -/
def execMulh (rd rs1 rs2 : Reg) (s : State) : Host.Outcome State Fault Refusal :=
  retire rd (highWord ((s.readReg rs1).toInt * (s.readReg rs2).toInt)) s

/-- R213 -/
def execMulhu (rd rs1 rs2 : Reg) (s : State) : Host.Outcome State Fault Refusal :=
  retire rd (highWord (((s.readReg rs1).toNat : Int) * ((s.readReg rs2).toNat : Int))) s

/-- R214: rs1 signed, rs2 unsigned -/
def execMulhsu (rd rs1 rs2 : Reg) (s : State) : Host.Outcome State Fault Refusal :=
  retire rd (highWord ((s.readReg rs1).toInt * ((s.readReg rs2).toNat : Int))) s

/-- R215 -/
def execDiv (rd rs1 rs2 : Reg) (s : State) : Host.Outcome State Fault Refusal :=
  retire rd (if s.readReg rs2 = 0#32 then 0xFFFFFFFF#32
    else wrap32 ((s.readReg rs1).toInt.tdiv (s.readReg rs2).toInt)) s

/-- R216 -/
def execDivu (rd rs1 rs2 : Reg) (s : State) : Host.Outcome State Fault Refusal :=
  retire rd (if s.readReg rs2 = 0#32 then 0xFFFFFFFF#32
    else BitVec.ofNat 32 ((s.readReg rs1).toNat / (s.readReg rs2).toNat)) s

/-- R217 -/
def execRem (rd rs1 rs2 : Reg) (s : State) : Host.Outcome State Fault Refusal :=
  retire rd (if s.readReg rs2 = 0#32 then s.readReg rs1
    else wrap32 ((s.readReg rs1).toInt.tmod (s.readReg rs2).toInt)) s

/-- R218 -/
def execRemu (rd rs1 rs2 : Reg) (s : State) : Host.Outcome State Fault Refusal :=
  retire rd (if s.readReg rs2 = 0#32 then s.readReg rs1
    else BitVec.ofNat 32 ((s.readReg rs1).toNat % (s.readReg rs2).toNat)) s

end Sys2Proof.Machine
end

