-- ==== Sys2Proof/Machine/System.lean ====
section
/-! DEFINITION. fence, ebreak and ecall (spec/44_misc.md R200 to R202, 46_environment_call.md R230 to R233). -/

namespace Sys2Proof.Machine

/-- R201: a no-op whose fields are ignored; every access is already in order (20_memory.md R63) -/
def execFence (_rd _rs1 : Reg) (_imm : BitVec 12) (s : State) : Host.Outcome State Fault Refusal :=
  .next s.advance

/-- R202: halt, with the pc unchanged -/
def execEbreak (_rd _rs1 : Reg) (s : State) : Host.Outcome State Fault Refusal :=
  .next s.setHalt

/-- The call number that halts (R230, R231, decision D25; log 18). -/
def haltCall : Word := 10#32

/-- The call number that prints (R230, R232, decision D25; log 18). -/
def printCall : Word := 1#32

/-- R230: call 10 halts with the pc unchanged (R231), call 1 prints s(x10) and advances (R232), every
other call number is an error that names the call number, the pc and the word (R233). -/
def execEcall (rd rs1 : Reg) (s : State) : Host.Outcome State Fault Refusal :=
  if s.readReg callNumberReg = haltCall then .next s.setHalt
  else if s.readReg callNumberReg = printCall then .next (s.emit (s.readReg printReg).toInt).advance
  else raise (.unimplementedSyscall (s.readReg callNumberReg) s.pc (encode (.ecall rd rs1)))

end Sys2Proof.Machine
end

