-- ==== Sys2Proof/Machine/Upper.lean ====
section
/-! DEFINITION. Upper-immediate instructions (spec/42_upper_immediate.md R170 to R172). -/

namespace Sys2Proof.Machine

/-- R171 -/
def execLui (rd : Reg) (imm20 : BitVec 20) (s : State) : Host.Outcome State Fault Refusal :=
  retire rd (upperImmediate imm20) s

/-- R172 (adding the pc by general knowledge, G17; log 10) -/
def execAuipc (rd : Reg) (imm20 : BitVec 20) (s : State) : Host.Outcome State Fault Refusal :=
  retire rd (s.pc + upperImmediate imm20) s

end Sys2Proof.Machine
end

