-- ==== Sys2Proof/Machine/Fetch.lean ====
section
/-! DEFINITION. Fetching the word at the pc, and how a step's parts are put together
(spec/30_encoding.md R81, R95, R96). -/

namespace Sys2Proof.Machine

/-- `w <- MemRead(pc, 4)` with access kind FETCH; the pc need not be a multiple of 4 (R81). -/
def State.fetch (s : State) : Except Fault Word := s.memRead .fetch s.pc 4

/-- Dispatch the word and give the instruction, or the error of R95 with the word and the pc. -/
def State.select (s : State) (w : Word) : Except Fault Instr :=
  match dispatch s.extList w with
  | .unimplemented => .error (.unimplementedInstruction w s.pc)
  | .found op => .ok (op.instr (decodeFields w))
  | .conflict => .error (.dispatchConflict w s.pc)

/-- Fetch, then dispatch: the instruction the step is to execute (R81, R95). -/
def State.nextInstr (s : State) : Except Fault Instr := s.fetch.bind s.select

/-- The engine's `x[0] <- 0` after the execute effect; an error ends the step before it (R96). -/
def clampOutcome : Host.Outcome State Fault Refusal → Host.Outcome State Fault Refusal
  | .next t => .next t.clampX0
  | .fault f => .fault f
  | .refused r => .refused r

/-- Store a word where the next fetch reads it: the four bytes at the pc, with the halt flag clear.
Where the pc leaves no room for an instruction, no fetch can succeed and nothing is stored (R81; log 20). -/
def State.placeAtPc (s : State) (w : Word) : State :=
  if s.inBounds s.pc 4 then { s with mem := s.mem.writeBytes s.pc.toNat (toBytes 4 w), halt := false } else s

end Sys2Proof.Machine
end

