-- ==== Sys2Proof/Machine/Step.lean ====
section
/-! DEFINITION. The step: fetch, decode, dispatch, execute, clamp x0 (spec/30_encoding.md R96). -/

namespace Sys2Proof.Machine

/-- One step: a no-op when halted; otherwise the first error that applies, in the order of
60_exceptions.md R245, or the execute effect followed by the x0 clamp (R96). -/
def step (s : State) : Host.Outcome State Fault Refusal :=
  if s.halt then .next s
  else match s.nextInstr with
    | .error f => .fault f
    | .ok i => clampOutcome (exec i s)

/-- The host's entry: the state with an instruction stored where the next step fetches it. The word's
bits are numbered as spec/opcode_table.json numbers them, and those above `nbits` are 0. It stands for
a loadImage at the pc (log 20). -/
def State.withFetchWord (s : State) (nbits w : Nat) : State := s.placeAtPc (BitVec.ofNat 32 (w % 2 ^ nbits))

end Sys2Proof.Machine
end

