-- ==== Sys2Proof/Machine/Assembly.lean ====
section
/-! DEFINITION. Assembler notation: the standard register names (spec/10_state.md R21) and the
pseudo-instructions with the core instructions they stand for (30_encoding.md R101). The spec takes both
from general knowledge (G2, G13); no behavior of the CORE depends on them (log 25). -/

namespace Sys2Proof.Machine

/-- The standard names of x0 to x31 (R21, decision D23). -/
def abiNames : List String :=
  ["zero", "ra", "sp", "gp", "tp", "t0", "t1", "t2"] ++
  ["s0", "s1", "a0", "a1", "a2", "a3", "a4", "a5"] ++
  ["a6", "a7", "s2", "s3", "s4", "s5", "s6", "s7"] ++
  ["s8", "s9", "s10", "s11", "t3", "t4", "t5", "t6"]

/-- The second name of x8 (R21). -/
def framePointerName : String := "fp"

/-- A register's standard name (R21). -/
def abiName (r : Reg) : String := abiNames.getD r.val ""

/-- The register that a name denotes: `x0` to `x31`, a standard name, or `fp` (R21, R100). -/
def registerNamed (name : String) : Option Reg :=
  (List.finRange 32).find? fun r =>
    name == "x" ++ toString r.val || name == abiName r || (r == 8 && name == framePointerName)

/-- The pseudo-instructions of R101. A displacement is in bytes from the address of the first instruction;
an address operand (`call`, `tail`, `la`) is given as that displacement. -/
inductive Pseudo where
  | nop
  | li (rd : Reg) (imm : Word)
  | mv (rd rs : Reg)
  | not (rd rs : Reg)
  | neg (rd rs : Reg)
  | seqz (rd rs : Reg)
  | snez (rd rs : Reg)
  | sltz (rd rs : Reg)
  | sgtz (rd rs : Reg)
  | beqz (rs : Reg) (offset : BitVec 13)
  | bnez (rs : Reg) (offset : BitVec 13)
  | blez (rs : Reg) (offset : BitVec 13)
  | bgez (rs : Reg) (offset : BitVec 13)
  | bltz (rs : Reg) (offset : BitVec 13)
  | bgtz (rs : Reg) (offset : BitVec 13)
  | bgt (rs rt : Reg) (offset : BitVec 13)
  | ble (rs rt : Reg) (offset : BitVec 13)
  | bgtu (rs rt : Reg) (offset : BitVec 13)
  | bleu (rs rt : Reg) (offset : BitVec 13)
  | j (offset : BitVec 21)
  | jalLink (offset : BitVec 21)
  | jr (rs : Reg)
  | jalrLink (rs : Reg)
  | ret
  | call (offset : Word)
  | tail (offset : Word)
  | la (rd : Reg) (offset : Word)
  | fence
  deriving DecidableEq, Repr

/-- `lo`, the low 12 bits of a constant (R101). -/
def lowPart (v : Word) : BitVec 12 := v.extractLsb' 0 12

/-- `hi = ((v - s(lo)) >> 12) & 0xFFFFF` (R101). -/
def highPart (v : Word) : BitVec 20 := (v - sext (lowPart v)).extractLsb' 12 20

/-- The core instructions that a pseudo-instruction stands for (R101). -/
def Pseudo.expand : Pseudo → List Instr
  | .nop => [.addi 0 0 0]
  | .li rd imm =>
    if imm = sext (lowPart imm) then [.addi rd 0 (lowPart imm)] else [.lui rd (highPart imm), .addi rd rd (lowPart imm)]
  | .mv rd rs => [.addi rd rs 0]
  | .not rd rs => [.xori rd rs (-1)]
  | .neg rd rs => [.sub rd 0 rs]
  | .seqz rd rs => [.sltiu rd rs 1]
  | .snez rd rs => [.sltu rd 0 rs]
  | .sltz rd rs => [.slt rd rs 0]
  | .sgtz rd rs => [.slt rd 0 rs]
  | .beqz rs offset => [.beq rs 0 offset]
  | .bnez rs offset => [.bne rs 0 offset]
  | .blez rs offset => [.bge 0 rs offset]
  | .bgez rs offset => [.bge rs 0 offset]
  | .bltz rs offset => [.blt rs 0 offset]
  | .bgtz rs offset => [.blt 0 rs offset]
  | .bgt rs rt offset => [.blt rt rs offset]
  | .ble rs rt offset => [.bge rt rs offset]
  | .bgtu rs rt offset => [.bltu rt rs offset]
  | .bleu rs rt offset => [.bgeu rt rs offset]
  | .j offset => [.jal 0 offset]
  | .jalLink offset => [.jal 1 offset]
  | .jr rs => [.jalr 0 rs 0]
  | .jalrLink rs => [.jalr 1 rs 0]
  | .ret => [.jalr 0 1 0]
  | .call offset => [.auipc 1 (highPart offset), .jalr 1 1 (lowPart offset)]
  | .tail offset => [.auipc 6 (highPart offset), .jalr 0 6 (lowPart offset)]
  | .la rd offset => [.auipc rd (highPart offset), .addi rd rd (lowPart offset)]
  | .fence => [.fence 0 0 0x0FF]

/-- Instructions executed one after the other, up to the first that gives no next state. -/
def execAll : List Instr → State → Host.Outcome State Fault Refusal
  | [], s => .next s
  | i :: is, s =>
    match exec i s with
    | .next t => execAll is t
    | .fault f => .fault f
    | .refused r => .refused r

end Sys2Proof.Machine
end

