-- ==== Sys2Proof/Machine/Commands.lean ====
section
/-! DEFINITION. The commands the CORE exposes to its host (spec/00_scope.md R8): construct, reset,
loadImage, step with the state an error leaves, run, peek and the snapshot reads. -/

namespace Sys2Proof.Machine

/-! ### construct (70_reset_and_hazards.md R280, R281) -/

/-- An entry of construct's extension list: one of the three extensions, or anything else. -/
inductive ExtEntry where
  | ext (e : Ext)
  | malformed
  deriving DecidableEq, Repr

/-- The extensions of a list of entries, or the index of the first malformed one (R280). -/
def checkExtensions : Nat → List ExtEntry → Except Fault (List Ext)
  | _, [] => .ok []
  | i, .ext e :: rest => (checkExtensions (i + 1) rest).map (e :: ·)
  | i, .malformed :: _ => .error (.configExtension i)

/-- The memory size of a size argument: an integer in 1 .. 2^32, or none (R280, decision D12). -/
def SizeArg.accepted : SizeArg → Option Nat
  | .int n => if 1 ≤ n ∧ n ≤ Config.maxMemSize then some n.toNat else none
  | .notInteger _ => none

/-- `construct(size, exts)`: a fresh instance, or the configuration error, the size being checked
first (R280, 60_exceptions.md R245). A failed construct gives no instance (R281). -/
def construct (size : SizeArg) (entries : List ExtEntry) : Except Fault State :=
  match size.accepted with
  | none => .error (.configMemSize size)
  | some n => (checkExtensions 0 entries).map fun exts => { State.reset with memSize := n, extList := exts }

/-! ### reset and loadImage -/

/-- `reset()`: the construction-time initial state, with the configuration and the printed events kept
(R282, decision D21; log 17). The draw counter is kept, so that no draw is used twice (log 8). -/
def State.resetCommand (s : State) : State :=
  { State.reset with memSize := s.memSize, extList := s.extList, sink := s.sink, storeDraws := s.storeDraws }

/-- `loadImage(base, bytes)`: all or nothing (20_memory.md R61). -/
def State.loadImage (s : State) (base : Word) (bytes : List Byte) : Except Fault State :=
  if s.inBounds base bytes.length then .ok { s with mem := s.mem.writeBytes base.toNat bytes }
  else .error (.bounds .image base.toNat bytes.length)

/-! ### step and run, with the state after an error (60_exceptions.md R243, R246, R251) -/

/-- The state that a failing step leaves: everything as before, but for a store that is partly in
bounds (R243). -/
def State.afterError (s : State) : State :=
  match s.nextInstr with
  | .error _ => s
  | .ok i =>
    match storeParts s i with
    | none => s
    | some (ea, n, v) => if !s.inBounds ea n && s.inBounds ea 1 then s.tornStore ea n v else s

/-- How a command ended: OK, an error outcome, or an instruction the model refuses. -/
inductive Ending where
  | ok
  | error (f : Fault)
  | refused (r : Refusal)
  deriving DecidableEq, Repr

/-- `step()` as a command: the state afterwards, also after an error, and the outcome (R243, R246). -/
def State.stepCommand (s : State) : State × Ending :=
  match step s with
  | .next t => (t, .ok)
  | .fault f => (s.afterError, .error f)
  | .refused r => (s, .refused r)

/-- `run(maxSteps)` with a budget: stops early on halt and at the first error (R251). -/
def State.run : Nat → State → State × Ending
  | 0, s => (s, .ok)
  | k + 1, s =>
    if s.halt then (s, .ok)
    else match s.stepCommand with
      | (t, .ok) => State.run k t
      | (t, e) => (t, e)

/-- `run()` without a budget returns this result: a run with some budget ends there, halted or in an
error. It may return nothing (R250, R251; log 14). -/
def State.RunReturns (s : State) (result : State × Ending) : Prop :=
  ∃ k, s.run k = result ∧ (result.1.halt = true ∨ result.2 ≠ .ok)

/-! ### peek, the snapshot reads and the printed text -/

/-- `peekNextInstructionText()`: the text of the behavior at the pc, or the placeholder; it never fails
and is no state change (60_exceptions.md R252; log 16). -/
def State.peek (s : State) : String :=
  match s.fetch with
  | .error _ => Config.placeholderText
  | .ok w =>
    match dispatch s.extList w with
    | .found op => op.disassemble w
    | .unimplemented | .conflict => Config.placeholderText

/-- `readRegs`: the 32 registers as signed integers (10_state.md R35). -/
def State.readRegs (s : State) : List Int := (List.finRange 32).map fun i => (s.readReg i).toInt

/-- `readPc`: the pc as an unsigned integer (R35). -/
def State.readPc (s : State) : Nat := s.pc.toNat

/-- `readHalt` (R35). -/
def State.readHalt (s : State) : Bool := s.halt

/-- `readMem(a)`: one byte, or BoundsError (20_memory.md R62). -/
def State.readMem (s : State) (a : Nat) : Except Fault Byte :=
  if a < s.memSize then .ok (s.mem.read a) else .error (.bounds .hostRead a 1)

/-- The text the sink has received: each event through SINK_RENDER, in order (60_exceptions.md R254; log 15). -/
def State.sinkText (s : State) : String := String.join (s.sink.map Config.sinkRender)

/-- The numeric code of an error outcome (60_exceptions.md R241, decision D13; log 19). -/
def Fault.code : Fault → Nat
  | .configMemSize _ => 1
  | .configExtension _ => 2
  | .dispatchConflict _ _ => 3
  | .bounds _ _ _ => 4
  | .unimplementedInstruction _ _ => 5
  | .unimplementedSyscall _ _ _ => 6

/-- The code of a command's ending: 0 is OK (R241). -/
def Ending.code : Ending → Option Nat
  | .ok => some 0
  | .error f => some f.code
  | .refused _ => none

/-! ### One transition per command (00_scope.md R7, R8) -/

/-- A command to a constructed instance. -/
inductive Command where
  | reset
  | loadImage (base : Word) (bytes : List Byte)
  | step
  | run (maxSteps : Option Nat)
  | peek
  | readRegs
  | readPc
  | readHalt
  | readMem (address : Nat)
  deriving DecidableEq, Repr

/-- What a command gives back besides the next state. -/
inductive Reply where
  | done (e : Ending)
  | text (t : String)
  | regs (values : List Int)
  | pc (value : Nat)
  | halt (value : Bool)
  | byte (value : Byte)
  deriving DecidableEq, Repr

/-- A command that takes a state to a state with a reply; only `run` without a budget may give none (R251). -/
def Performs (s : State) : Command → State × Reply → Prop
  | .reset, r => r = (s.resetCommand, .done .ok)
  | .loadImage base bytes, r =>
    r = match s.loadImage base bytes with
      | .ok t => (t, .done .ok)
      | .error f => (s, .done (.error f))
  | .step, r => r = (s.stepCommand.1, .done s.stepCommand.2)
  | .run (some k), r => r = ((s.run k).1, .done (s.run k).2)
  | .run none, r => ∃ t e, s.RunReturns (t, e) ∧ r = (t, .done e)
  | .peek, r => r = (s, .text s.peek)
  | .readRegs, r => r = (s, .regs s.readRegs)
  | .readPc, r => r = (s, .pc s.readPc)
  | .readHalt, r => r = (s, .halt s.readHalt)
  | .readMem a, r =>
    r = match s.readMem a with
      | .ok b => (s, .byte b)
      | .error f => (s, .done (.error f))

end Sys2Proof.Machine
end

