-- ==== Sys2Proof/Safety.lean ====
section
/-! DEFINITION. The terms in which claims speak of states and runs: the invariant, frames, and what
counts as a safe step. -/

namespace Sys2Proof.Machine

/-- What every reachable state satisfies: a canonical memory inside MEM_SIZE, a legal MEM_SIZE (00_scope.md
R6), x0 holding 0 (10_state.md R22), and events that are signed 32-bit integers (60_exceptions.md R254). -/
structure State.Inv (s : State) : Prop where
  memCanonical : s.mem.wf
  memInside : ∀ c ∈ s.mem, c.1 < s.memSize
  sizeLegal : 1 ≤ s.memSize ∧ s.memSize ≤ Config.maxMemSize
  zeroReg : s.regs[0] = 0#32
  eventsSigned : ∀ v ∈ s.sink, -2 ^ 31 ≤ v ∧ v < 2 ^ 31

/-- The configuration and the model's draw counter are as before. -/
structure SameConfig (s t : State) : Prop where
  memSize : t.memSize = s.memSize
  extList : t.extList = s.extList
  storeDraws : t.storeDraws = s.storeDraws

/-- Every register reads as before. -/
def SameRegs (s t : State) : Prop := ∀ r, t.readReg r = s.readReg r

/-- Register `rd` reads as `v` unless it is x0, which reads as 0, and every other register reads as before. -/
def OnlyReg (s t : State) (rd : Reg) (v : Word) : Prop :=
  ∀ r, t.readReg r = if r = 0 then 0#32 else if r = rd then v else s.readReg r

/-- Every byte of memory reads as before. -/
def SameMem (s t : State) : Prop := ∀ a, t.mem.read a = s.mem.read a

/-- The bytes of a store of `n` bytes of `v` at `ea`, and every other byte as before. -/
def OnlyBytes (s t : State) (ea : Word) (n : Nat) (v : Word) : Prop :=
  (∀ i, i < n → t.mem.read (ea.toNat + i) = byteOf v i) ∧
    ∀ a, (a < ea.toNat ∨ ea.toNat + n ≤ a) → t.mem.read a = s.mem.read a

/-- The halt flag and the printed events are as before. -/
def SameHaltSink (s t : State) : Prop := t.halt = s.halt ∧ t.sink = s.sink

/-- The effect of an instruction that writes one register: the value, the pc, and everything else as before. -/
structure WritesReg (s t : State) (rd : Reg) (v target : Word) : Prop where
  regs : OnlyReg s t rd v
  pc : t.pc = target
  mem : SameMem s t
  haltSink : SameHaltSink s t
  config : SameConfig s t

/-- The effect of an instruction that writes only the pc. -/
structure WritesPc (s t : State) (target : Word) : Prop where
  regs : SameRegs s t
  pc : t.pc = target
  mem : SameMem s t
  haltSink : SameHaltSink s t
  config : SameConfig s t

/-- The effect of an instruction that stores `n` bytes of `v` at `ea`. -/
structure WritesMem (s t : State) (ea : Word) (n : Nat) (v : Word) : Prop where
  regs : SameRegs s t
  pc : t.pc = s.pc + 4#32
  mem : OnlyBytes s t ea n v
  haltSink : SameHaltSink s t
  config : SameConfig s t

/-- The effect of a halting instruction: the halt flag, and nothing else (10_state.md R29). -/
structure Halts (s t : State) : Prop where
  halt : t.halt = true
  pc : t.pc = s.pc
  regs : SameRegs s t
  mem : SameMem s t
  sink : t.sink = s.sink
  config : SameConfig s t

/-- The instruction ends in this error, and the step that executes it leaves every piece of state as it
was (60_exceptions.md R243). -/
def FailsUnchanged (i : Instr) (s : State) (f : Fault) : Prop :=
  exec i s = .fault f ∧ (s.halt = false → s.nextInstr = .ok i → s.stepCommand = (s, .error f))

/-- The bytes of a store that failed: an in-bounds byte of it is the old or the new one, any other byte is
as before, and so is everything else (20_memory.md R53, 60_exceptions.md R243). -/
structure Torn (s t : State) (ea : Word) (n : Nat) (v : Word) : Prop where
  inside : ∀ i, i < n → ea.toNat + i < s.memSize →
    t.mem.read (ea.toNat + i) = s.mem.read (ea.toNat + i) ∨ t.mem.read (ea.toNat + i) = byteOf v i
  outside : ∀ a, (a < ea.toNat ∨ ea.toNat + n ≤ a ∨ s.memSize ≤ a) → t.mem.read a = s.mem.read a
  regs : SameRegs s t
  pc : t.pc = s.pc
  haltSink : SameHaltSink s t
  memSize : t.memSize = s.memSize
  extList : t.extList = s.extList

/-- The instruction ends in this error, and the step that executes it may tear the store it tried. -/
def FailsTorn (i : Instr) (s : State) (f : Fault) (ea : Word) (n : Nat) (v : Word) : Prop :=
  exec i s = .fault f ∧
    (s.halt = false → s.nextInstr = .ok i → ∃ t, s.stepCommand = (t, .error f) ∧ Torn s t ea n v)

/-- The word whose four bytes stand at the pc, least significant first (30_encoding.md R81). -/
def State.wordAtPc (s : State) : Word :=
  s.mem.read (s.pc.toNat + 3) ++ s.mem.read (s.pc.toNat + 2) ++ s.mem.read (s.pc.toNat + 1) ++ s.mem.read s.pc.toNat

/-- The step reports no error (60_exceptions.md R250: a run that reports one is not a finished run). -/
def State.SafeStep (s : State) : Prop := ∃ t, step s = .next t

/-- `k` steps from here report no error. -/
def State.SafeFor : Nat → State → Prop
  | 0, _ => True
  | k + 1, s => ∃ t, step s = .next t ∧ t.SafeFor k

end Sys2Proof.Machine
end

