-- ==== Sys2Proof/Certificates/Slice0/Obligations.lean ====
section
/-! DEFINITION. The statements for the provers, in the order of spec/. -/

open Sys2Proof Sys2Proof.Machine

/-! ### Registers and extension functions -/

/-- 10_state.md R22: x0 always reads 0, a write to it changes no register, and x0 holds 0 after construct,
after reset and, by the engine's clamp, after every step that executes an instruction. -/
def Obligations.ZeroRegisterStaysZero : Prop :=
  (∀ s : State, s.readReg 0 = 0#32) ∧
  (∀ (s : State) (v : Word), SameRegs s (s.writeReg 0 v)) ∧
  (∀ (size : SizeArg) (entries : List ExtEntry) (s : State), construct size entries = .ok s → s.regs[0] = 0#32) ∧
  (∀ s : State, s.resetCommand.regs[0] = 0#32) ∧
  ∀ s t : State, s.halt = false → step s = .next t → t.regs[0] = 0#32

/-- 00_scope.md R11: the numeric values of sext_N and zext_N for every width up to 32. -/
def Obligations.ExtensionFunctions : Prop :=
  ∀ (n : Nat) (v : BitVec n), 0 < n → n ≤ 32 →
    (sext v).toNat = (if v.getLsbD (n - 1) = false then v.toNat else v.toNat + (2 ^ 32 - 2 ^ n)) ∧
    (zext v).toNat = v.toNat

/-! ### Arithmetic, logic, shift, compare (40_arith_logic_compare.md) -/

/-- R121, R122, R123: add, addi and sub complete in every state, write the sum or difference reduced
modulo 2^32, and change nothing but rd and the pc. -/
def Obligations.AddSubResults : Prop :=
  ∀ (rd rs1 rs2 : Reg) (imm : BitVec 12) (s : State),
    (∃ t, exec (.add rd rs1 rs2) s = .next t ∧ WritesReg s t rd
      (wrap32 (((s.readReg rs1).toNat : Int) + ((s.readReg rs2).toNat : Int))) (s.pc + 4#32)) ∧
    (∃ t, exec (.addi rd rs1 imm) s = .next t ∧ WritesReg s t rd
      (wrap32 (((s.readReg rs1).toNat : Int) + imm.toInt)) (s.pc + 4#32)) ∧
    (∃ t, exec (.sub rd rs1 rs2) s = .next t ∧ WritesReg s t rd
      (wrap32 (((s.readReg rs1).toNat : Int) - ((s.readReg rs2).toNat : Int))) (s.pc + 4#32))

/-- R124 to R129: the bitwise instructions, bit by bit; a negative immediate is all ones above bit 11. -/
def Obligations.BitwiseResults : Prop :=
  ∀ (rd rs1 rs2 : Reg) (imm : BitVec 12) (s : State),
    let a := s.readReg rs1
    let b := s.readReg rs2
    let immBit : Nat → Bool := fun k => if k < 12 then imm.getLsbD k else imm.getLsbD 11
    (∃ t v, exec (.xor rd rs1 rs2) s = .next t ∧ WritesReg s t rd v (s.pc + 4#32) ∧
      ∀ k, k < 32 → v.getLsbD k = (a.getLsbD k != b.getLsbD k)) ∧
    (∃ t v, exec (.or rd rs1 rs2) s = .next t ∧ WritesReg s t rd v (s.pc + 4#32) ∧
      ∀ k, k < 32 → v.getLsbD k = (a.getLsbD k || b.getLsbD k)) ∧
    (∃ t v, exec (.and rd rs1 rs2) s = .next t ∧ WritesReg s t rd v (s.pc + 4#32) ∧
      ∀ k, k < 32 → v.getLsbD k = (a.getLsbD k && b.getLsbD k)) ∧
    (∃ t v, exec (.xori rd rs1 imm) s = .next t ∧ WritesReg s t rd v (s.pc + 4#32) ∧
      ∀ k, k < 32 → v.getLsbD k = (a.getLsbD k != immBit k)) ∧
    (∃ t v, exec (.ori rd rs1 imm) s = .next t ∧ WritesReg s t rd v (s.pc + 4#32) ∧
      ∀ k, k < 32 → v.getLsbD k = (a.getLsbD k || immBit k)) ∧
    (∃ t v, exec (.andi rd rs1 imm) s = .next t ∧ WritesReg s t rd v (s.pc + 4#32) ∧
      ∀ k, k < 32 → v.getLsbD k = (a.getLsbD k && immBit k))

/-- R130, R131, R133, R134: left and logical right shifts, as multiplication and floor division by a
power of two; a register shift amount counts modulo 32. -/
def Obligations.LogicalShiftResults : Prop :=
  ∀ (rd rs1 rs2 : Reg) (shamt : Fin 32) (s : State),
    let a := (s.readReg rs1).toNat
    let k := (s.readReg rs2).toNat % 32
    (∃ t, exec (.sll rd rs1 rs2) s = .next t ∧ WritesReg s t rd (BitVec.ofNat 32 (a * 2 ^ k)) (s.pc + 4#32)) ∧
    (∃ t, exec (.srl rd rs1 rs2) s = .next t ∧ WritesReg s t rd (BitVec.ofNat 32 (a / 2 ^ k)) (s.pc + 4#32)) ∧
    (∃ t, exec (.slli rd rs1 shamt) s = .next t ∧
      WritesReg s t rd (BitVec.ofNat 32 (a * 2 ^ shamt.val)) (s.pc + 4#32)) ∧
    (∃ t, exec (.srli rd rs1 shamt) s = .next t ∧
      WritesReg s t rd (BitVec.ofNat 32 (a / 2 ^ shamt.val)) (s.pc + 4#32))

/-- R132, R135 (that sra and srai are arithmetic is the spec's general knowledge, G15; log 10): floor
division of the signed view by a power of two. -/
def Obligations.ArithmeticShiftResults : Prop :=
  ∀ (rd rs1 rs2 : Reg) (shamt : Fin 32) (s : State),
    (∃ t, exec (.sra rd rs1 rs2) s = .next t ∧ WritesReg s t rd
      (wrap32 (Int.fdiv (s.readReg rs1).toInt (2 ^ ((s.readReg rs2).toNat % 32)))) (s.pc + 4#32)) ∧
    (∃ t, exec (.srai rd rs1 shamt) s = .next t ∧ WritesReg s t rd
      (wrap32 (Int.fdiv (s.readReg rs1).toInt (2 ^ shamt.val))) (s.pc + 4#32))

/-- R136 to R139: the comparisons write 1 or 0, signed or unsigned; sltiu extends its immediate first. -/
def Obligations.CompareResults : Prop :=
  ∀ (rd rs1 rs2 : Reg) (imm : BitVec 12) (s : State),
    let a := s.readReg rs1
    let b := s.readReg rs2
    (∃ t, exec (.slt rd rs1 rs2) s = .next t ∧
      WritesReg s t rd (if a.toInt < b.toInt then 1#32 else 0#32) (s.pc + 4#32)) ∧
    (∃ t, exec (.slti rd rs1 imm) s = .next t ∧
      WritesReg s t rd (if a.toInt < imm.toInt then 1#32 else 0#32) (s.pc + 4#32)) ∧
    (∃ t, exec (.sltu rd rs1 rs2) s = .next t ∧
      WritesReg s t rd (if a.toNat < b.toNat then 1#32 else 0#32) (s.pc + 4#32)) ∧
    (∃ t, exec (.sltiu rd rs1 imm) s = .next t ∧
      WritesReg s t rd (if a.toNat < (wrap32 imm.toInt).toNat then 1#32 else 0#32) (s.pc + 4#32))

/-! ### Control transfer (41_control_transfer.md) -/

/-- R151 to R156 (that the target is taken modulo 2^32 is decision D3 in R150 and R27; log 4): a branch
changes only the pc, to pc + imm_b modulo 2^32 when its condition holds and to pc + 4 otherwise. -/
def Obligations.BranchResults : Prop :=
  ∀ (rs1 rs2 : Reg) (offset : BitVec 13) (s : State),
    let a := s.readReg rs1
    let b := s.readReg rs2
    let taken := wrap32 ((s.pc.toNat : Int) + offset.toInt)
    let next := wrap32 ((s.pc.toNat : Int) + 4)
    (∃ t, exec (.beq rs1 rs2 offset) s = .next t ∧ WritesPc s t (if a = b then taken else next)) ∧
    (∃ t, exec (.bne rs1 rs2 offset) s = .next t ∧ WritesPc s t (if a = b then next else taken)) ∧
    (∃ t, exec (.blt rs1 rs2 offset) s = .next t ∧ WritesPc s t (if a.toInt < b.toInt then taken else next)) ∧
    (∃ t, exec (.bge rs1 rs2 offset) s = .next t ∧ WritesPc s t (if b.toInt ≤ a.toInt then taken else next)) ∧
    (∃ t, exec (.bltu rs1 rs2 offset) s = .next t ∧ WritesPc s t (if a.toNat < b.toNat then taken else next)) ∧
    (∃ t, exec (.bgeu rs1 rs2 offset) s = .next t ∧ WritesPc s t (if b.toNat ≤ a.toNat then taken else next))

/-- R157, R158 (that the old x[rs1] counts, also where rd = rs1, is decision D8, log 9; that the targets are
taken modulo 2^32 is D3, log 4): a jump writes pc + 4 to rd; jal goes to pc + imm_j, jalr to the old x[rs1] + imm_i with
bit 0 cleared, both modulo 2^32. -/
def Obligations.JumpResults : Prop :=
  ∀ (rd rs1 : Reg) (offset : BitVec 21) (imm : BitVec 12) (s : State),
    let link := wrap32 ((s.pc.toNat : Int) + 4)
    let sum := wrap32 (((s.readReg rs1).toNat : Int) + imm.toInt)
    (∃ t, exec (.jal rd offset) s = .next t ∧
      WritesReg s t rd link (wrap32 ((s.pc.toNat : Int) + offset.toInt))) ∧
    (∃ t, exec (.jalr rd rs1 imm) s = .next t ∧
      WritesReg s t rd link (BitVec.ofNat 32 (2 * (sum.toNat / 2))))

/-! ### Upper immediates (42_upper_immediate.md) -/

/-- R171: lui writes the immediate in bits 31:12 and zeros below. -/
def Obligations.LuiResult : Prop :=
  ∀ (rd : Reg) (imm20 : BitVec 20) (s : State),
    ∃ t, exec (.lui rd imm20) s = .next t ∧
      WritesReg s t rd (BitVec.ofNat 32 (imm20.toNat * 2 ^ 12)) (s.pc + 4#32)

/-- R172 (that auipc adds its own pc is the spec's general knowledge, G17; log 10). -/
def Obligations.AuipcResult : Prop :=
  ∀ (rd : Reg) (imm20 : BitVec 20) (s : State),
    ∃ t, exec (.auipc rd imm20) s = .next t ∧
      WritesReg s t rd (BitVec.ofNat 32 (s.pc.toNat + imm20.toNat * 2 ^ 12)) (s.pc + 4#32)

/-! ### Loads and stores (43_load_store.md) -/

/-- R181 to R185 (the wrap of the address, the bounds check without wrap, no alignment check and what an
error leaves are decisions D3 to D6; log 4, 6, 21): a load in bounds completes, at any alignment, with its
bytes assembled little-endian and extended; out of bounds it is a BoundsError and the step leaves every
piece of state as it was. -/
def Obligations.LoadResults : Prop :=
  ∀ (rd rs1 : Reg) (imm : BitVec 12) (s : State),
    let ea := wrap32 (((s.readReg rs1).toNat : Int) + imm.toInt)
    let b : Nat → Byte := fun k => s.mem.read (ea.toNat + k)
    (ea.toNat + 1 ≤ s.memSize →
      (∃ t, exec (.lb rd rs1 imm) s = .next t ∧ WritesReg s t rd (sext (b 0)) (s.pc + 4#32)) ∧
      (∃ t, exec (.lbu rd rs1 imm) s = .next t ∧ WritesReg s t rd (zext (b 0)) (s.pc + 4#32))) ∧
    (ea.toNat + 2 ≤ s.memSize →
      (∃ t, exec (.lh rd rs1 imm) s = .next t ∧ WritesReg s t rd (sext (b 1 ++ b 0)) (s.pc + 4#32)) ∧
      (∃ t, exec (.lhu rd rs1 imm) s = .next t ∧ WritesReg s t rd (zext (b 1 ++ b 0)) (s.pc + 4#32))) ∧
    (ea.toNat + 4 ≤ s.memSize →
      ∃ t, exec (.lw rd rs1 imm) s = .next t ∧ WritesReg s t rd (b 3 ++ b 2 ++ b 1 ++ b 0) (s.pc + 4#32)) ∧
    (¬ea.toNat + 1 ≤ s.memSize →
      FailsUnchanged (.lb rd rs1 imm) s (.bounds .load ea.toNat 1) ∧
      FailsUnchanged (.lbu rd rs1 imm) s (.bounds .load ea.toNat 1)) ∧
    (¬ea.toNat + 2 ≤ s.memSize →
      FailsUnchanged (.lh rd rs1 imm) s (.bounds .load ea.toNat 2) ∧
      FailsUnchanged (.lhu rd rs1 imm) s (.bounds .load ea.toNat 2)) ∧
    (¬ea.toNat + 4 ≤ s.memSize → FailsUnchanged (.lw rd rs1 imm) s (.bounds .load ea.toNat 4))

/-- R186 to R188 (decisions D3 to D7; log 4, 6, 7, 21): a store in bounds completes, at any alignment, and
changes only its own bytes and the pc; out of bounds it is a BoundsError that writes nothing, but for the
in-bounds bytes of a halfword or word, each of which holds its old or its new value (the draw
STORE_FAULT_BYTES, a free value). -/
def Obligations.StoreResults : Prop :=
  ∀ (rs1 rs2 : Reg) (imm : BitVec 12) (s : State),
    let ea := wrap32 (((s.readReg rs1).toNat : Int) + imm.toInt)
    let v := s.readReg rs2
    (ea.toNat + 1 ≤ s.memSize → ∃ t, exec (.sb rs1 rs2 imm) s = .next t ∧ WritesMem s t ea 1 v) ∧
    (ea.toNat + 2 ≤ s.memSize → ∃ t, exec (.sh rs1 rs2 imm) s = .next t ∧ WritesMem s t ea 2 v) ∧
    (ea.toNat + 4 ≤ s.memSize → ∃ t, exec (.sw rs1 rs2 imm) s = .next t ∧ WritesMem s t ea 4 v) ∧
    (¬ea.toNat + 1 ≤ s.memSize → FailsUnchanged (.sb rs1 rs2 imm) s (.bounds .store ea.toNat 1)) ∧
    (¬ea.toNat + 2 ≤ s.memSize → FailsTorn (.sh rs1 rs2 imm) s (.bounds .store ea.toNat 2) ea 2 v) ∧
    (¬ea.toNat + 4 ≤ s.memSize → FailsTorn (.sw rs1 rs2 imm) s (.bounds .store ea.toNat 4) ea 4 v)

/-- 20_memory.md R54, R55 (derived in the spec): after a word store, a load at an address inside the word
sees its bytes, whatever the width, and a word load sees the word. -/
def Obligations.StoreThenLoad : Prop :=
  ∀ (rd rs1 rs1' rs2 : Reg) (imm imm' : BitVec 12) (s t : State), exec (.sw rs1 rs2 imm) s = .next t →
    let ea := s.effectiveAddress rs1 imm
    let ea' := t.effectiveAddress rs1' imm'
    let v := s.readReg rs2
    (ea' = ea → ∃ u, exec (.lw rd rs1' imm') t = .next u ∧ WritesReg t u rd v (t.pc + 4#32)) ∧
    (∀ k, k < 4 → ea'.toNat = ea.toNat + k →
      ∃ u, exec (.lbu rd rs1' imm') t = .next u ∧ WritesReg t u rd (zext (byteOf v k)) (t.pc + 4#32)) ∧
    (∀ k, k < 3 → ea'.toNat = ea.toNat + k →
      ∃ u, exec (.lhu rd rs1' imm') t = .next u ∧
        WritesReg t u rd (zext (byteOf v (k + 1) ++ byteOf v k)) (t.pc + 4#32))

/-- 20_memory.md R66 (derived in the spec): a word stored at the address of the next instruction is the
word the next step fetches. -/
def Obligations.StoreSeenByNextFetch : Prop :=
  ∀ (rs1 rs2 : Reg) (imm : BitVec 12) (s t : State), s.halt = false → s.nextInstr = .ok (.sw rs1 rs2 imm) →
    s.effectiveAddress rs1 imm = s.pc + 4#32 → step s = .next t → t.fetch = .ok (s.readReg rs2)

/-! ### fence, ebreak, ecall (44_misc.md, 46_environment_call.md) -/

/-- R201: fence, with any fields, only advances the pc. -/
def Obligations.FenceIsNoOp : Prop :=
  ∀ (rd rs1 : Reg) (imm : BitVec 12) (s : State),
    ∃ t, exec (.fence rd rs1 imm) s = .next t ∧ WritesPc s t (wrap32 ((s.pc.toNat : Int) + 4))

/-- R202: ebreak, with any fields, sets halt and changes nothing else; every further step is a no-op, and
of the host's commands only reset clears the halt. -/
def Obligations.EbreakHalts : Prop :=
  ∀ (rd rs1 : Reg) (s : State),
    ∃ t, exec (.ebreak rd rs1) s = .next t ∧ Halts s t ∧ step t = .next t ∧
      ∀ c u r, Performs t c (u, r) → u.halt = false → c = .reset

/-- R231: ecall with x17 = 10 sets halt, changes nothing else and prints nothing; a further step is a no-op. -/
def Obligations.EcallTenHalts : Prop :=
  ∀ (rd rs1 : Reg) (s : State), s.readReg 17 = 10#32 →
    ∃ t, exec (.ecall rd rs1) s = .next t ∧ Halts s t ∧ step t = .next t

/-- R232 (the pc advance is derived in the spec, the event's value is decision D16; log 15): ecall with
x17 = 1 appends one event, the signed value of x10, advances the pc and changes nothing else. -/
def Obligations.EcallOnePrints : Prop :=
  ∀ (rd rs1 : Reg) (s : State), s.readReg 17 = 1#32 →
    ∃ t, exec (.ecall rd rs1) s = .next t ∧ t.sink = s.sink ++ [(s.readReg 10).toInt] ∧
      t.pc = s.pc + 4#32 ∧ t.halt = s.halt ∧ SameRegs s t ∧ SameMem s t ∧ SameConfig s t

/-- R233 (the payload is decision D14; log 19): ecall with any other call number is an
UnimplementedSyscallError that carries the call number, the pc and the fetched word, and nothing is written. -/
def Obligations.EcallOtherFails : Prop :=
  ∀ (s : State) (w : Word) (rd rs1 : Reg), s.halt = false → s.fetch = .ok w →
    decodeWith s.extList w = .ok (.ecall rd rs1) → s.readReg 17 ≠ 10#32 → s.readReg 17 ≠ 1#32 →
    step s = .fault (.unimplementedSyscall (s.readReg 17) s.pc w) ∧
    s.stepCommand = (s, .error (.unimplementedSyscall (s.readReg 17) s.pc w))

/-- R234 (derived in the spec): without ENVCALL an ecall word is an unimplemented instruction, whatever x17 holds. -/
def Obligations.EcallNeedsItsExtension : Prop :=
  ∀ (s : State) (w : Word), s.halt = false → s.fetch = .ok w → w &&& 0xFFF0707F#32 = 0x00000073#32 →
    Ext.envcall ∉ s.extList → step s = .fault (.unimplementedInstruction w s.pc)

/-! ### Multiply and divide (45_multiply_divide.md) -/

/-- R211, R213, R214: the low word of the product, the same for both views, and the high words of the
unsigned and of the signed by unsigned product. -/
def Obligations.MultiplyResults : Prop :=
  ∀ (rd rs1 rs2 : Reg) (s : State),
    let a := s.readReg rs1
    let b := s.readReg rs2
    (∃ t v, exec (.mul rd rs1 rs2) s = .next t ∧ WritesReg s t rd v (s.pc + 4#32) ∧
      v = wrap32 (a.toInt * b.toInt) ∧ v = wrap32 ((a.toNat : Int) * (b.toNat : Int))) ∧
    (∃ t, exec (.mulhu rd rs1 rs2) s = .next t ∧
      WritesReg s t rd (BitVec.ofNat 32 (a.toNat * b.toNat / 2 ^ 32)) (s.pc + 4#32)) ∧
    (∃ t, exec (.mulhsu rd rs1 rs2) s = .next t ∧
      WritesReg s t rd (wrap32 (Int.fdiv (a.toInt * (b.toNat : Int)) (2 ^ 32))) (s.pc + 4#32))

/-- R212 (that mulh is signed by signed is the spec's general knowledge, G18; log 10). -/
def Obligations.MulhResult : Prop :=
  ∀ (rd rs1 rs2 : Reg) (s : State),
    ∃ t, exec (.mulh rd rs1 rs2) s = .next t ∧ WritesReg s t rd
      (wrap32 (Int.fdiv ((s.readReg rs1).toInt * (s.readReg rs2).toInt) (2 ^ 32))) (s.pc + 4#32)

/-- R210 with the views that R212 to R214 name (that mulh is signed by signed is the spec's general knowledge,
G18; log 10): the high words are bits [63:32] of the product in 64-bit two's complement. -/
def Obligations.HighWordsAreUpperProductBits : Prop :=
  ∀ (rd rs1 rs2 : Reg) (s : State),
    let a := s.readReg rs1
    let b := s.readReg rs2
    (∃ t, exec (.mulh rd rs1 rs2) s = .next t ∧ WritesReg s t rd
      ((a.signExtend 64 * b.signExtend 64).extractLsb' 32 32) (s.pc + 4#32)) ∧
    (∃ t, exec (.mulhu rd rs1 rs2) s = .next t ∧ WritesReg s t rd
      ((a.setWidth 64 * b.setWidth 64).extractLsb' 32 32) (s.pc + 4#32)) ∧
    (∃ t, exec (.mulhsu rd rs1 rs2) s = .next t ∧ WritesReg s t rd
      ((a.signExtend 64 * b.setWidth 64).extractLsb' 32 32) (s.pc + 4#32))

/-- R215 to R218: truncating division and remainder, all ones and the dividend on a zero divisor. -/
def Obligations.DivideResults : Prop :=
  ∀ (rd rs1 rs2 : Reg) (s : State),
    let a := s.readReg rs1
    let b := s.readReg rs2
    (∃ t, exec (.div rd rs1 rs2) s = .next t ∧ WritesReg s t rd
      (if b = 0#32 then 0xFFFFFFFF#32 else wrap32 (Int.tdiv a.toInt b.toInt)) (s.pc + 4#32)) ∧
    (∃ t, exec (.divu rd rs1 rs2) s = .next t ∧ WritesReg s t rd
      (if b = 0#32 then 0xFFFFFFFF#32 else wrap32 ((a.toNat / b.toNat : Nat) : Int)) (s.pc + 4#32)) ∧
    (∃ t, exec (.rem rd rs1 rs2) s = .next t ∧ WritesReg s t rd
      (if b = 0#32 then a else wrap32 (a.toInt - b.toInt * Int.tdiv a.toInt b.toInt)) (s.pc + 4#32)) ∧
    (∃ t, exec (.remu rd rs1 rs2) s = .next t ∧ WritesReg s t rd
      (if b = 0#32 then a else wrap32 ((a.toNat % b.toNat : Nat) : Int)) (s.pc + 4#32))

/-- R219 (derived in the spec): with a nonzero divisor, dividend = divisor * quotient + remainder, exactly
but for the overflow case -2^31 / -1, where quotient and remainder are -2^31 and 0; the remainder is
smaller than the divisor. -/
def Obligations.DivisionIdentity : Prop :=
  ∀ (rd rs1 rs2 : Reg) (s : State), rd ≠ 0 → s.readReg rs2 ≠ 0#32 →
    let a := s.readReg rs1
    let b := s.readReg rs2
    (∃ t u, exec (.div rd rs1 rs2) s = .next t ∧ exec (.rem rd rs1 rs2) s = .next u ∧
      (if a = 0x80000000#32 ∧ b = 0xFFFFFFFF#32 then t.readReg rd = 0x80000000#32 ∧ u.readReg rd = 0#32
       else a.toInt = b.toInt * (t.readReg rd).toInt + (u.readReg rd).toInt) ∧
      (u.readReg rd).toInt.natAbs < b.toInt.natAbs) ∧
    (∃ t u, exec (.divu rd rs1 rs2) s = .next t ∧ exec (.remu rd rs1 rs2) s = .next u ∧
      a.toNat = b.toNat * (t.readReg rd).toNat + (u.readReg rd).toNat ∧ (u.readReg rd).toNat < b.toNat)

/-! ### Fetch, decode, dispatch (30_encoding.md) -/

/-- The step ends in this error before any instruction executes, and leaves every piece of state as it was. -/
def Sys2Proof.StepFailsUnchanged (s : State) (f : Fault) : Prop := step s = .fault f ∧ s.stepCommand = (s, .error f)

/-- R81, R96 (that a step that fails before it executes leaves every piece of state is R243's decision D6,
log 6; that the pc's alignment does not count is D5, log 21): the whole of a step, in its order: a no-op when halted, the fetch's bound at any alignment,
the number of catalog behaviors that match, and one execute effect followed by the clamp of x0, which an
error does not reach. A step that fails before it executes changes nothing. -/
def Obligations.StepInOrder : Prop :=
  ∀ s : State,
    (s.halt = true → step s = .next s ∧ s.stepCommand = (s, .ok)) ∧
    (s.halt = false → ¬s.pc.toNat + 4 ≤ s.memSize → StepFailsUnchanged s (.bounds .fetch s.pc.toNat 4)) ∧
    (s.halt = false → s.pc.toNat + 4 ≤ s.memSize →
      ((matching s.extList s.wordAtPc).length = 0 →
        StepFailsUnchanged s (.unimplementedInstruction s.wordAtPc s.pc)) ∧
      (2 ≤ (matching s.extList s.wordAtPc).length → StepFailsUnchanged s (.dispatchConflict s.wordAtPc s.pc)) ∧
      ∀ op, matching s.extList s.wordAtPc = [op] →
        (∀ t, exec (op.instr (decodeFields s.wordAtPc)) s = .next t →
          step s = .next t.clampX0 ∧ s.stepCommand = (t.clampX0, .ok)) ∧
        (∀ f, exec (op.instr (decodeFields s.wordAtPc)) s = .fault f →
          step s = .fault f ∧ s.stepCommand = (s.afterError, .error f)))

/-- R96: a step whose word decodes to an instruction is exec of that instruction at the same state, with
the clamp of x0 after it, which changes no register read and no other piece of state. -/
def Obligations.StepRunsDecodedInstruction : Prop :=
  ∀ (s : State) (i : Instr), s.halt = false → s.pc.toNat + 4 ≤ s.memSize →
    decodeWith s.extList s.wordAtPc = .ok i →
    step s = clampOutcome (exec i s) ∧
    ∀ t, exec i s = .next t → step s = .next t.clampX0 ∧ SameRegs t t.clampX0 ∧
      { t.clampX0 with regs := t.regs } = t

/-- R94, R95: a word that a behavior matches is unimplemented, found or in conflict as that behavior's
extension is loaded never, once or more often; a word that no behavior matches is unimplemented. -/
def Obligations.DispatchCountsLoads : Prop :=
  ∀ (exts : List Ext) (w : Word),
    (∀ op : Op, op.key.matches (decodeFields w) = true →
      (exts.count op.ext = 0 → dispatch exts w = .unimplemented) ∧
      (exts.count op.ext = 1 → dispatch exts w = .found op) ∧
      (2 ≤ exts.count op.ext → dispatch exts w = .conflict)) ∧
    ((∀ op : Op, op.key.matches (decodeFields w) = false) → dispatch exts w = .unimplemented)

/-- 10_state.md R33 (derived in the spec): the order of EXT_LIST changes no result of dispatch. -/
def Obligations.ExtensionOrderIrrelevant : Prop :=
  ∀ (exts exts' : List Ext), exts.Perm exts' → ∀ w : Word, dispatch exts w = dispatch exts' w

/-- The first half of R92's table as the spec prints it: behavior, extension, mask, match. -/
def Sys2Proof.matchTableA : List (Op × Ext × Word × Word) :=
  [(.lui, .base, 0x0000007F#32, 0x00000037#32), (.auipc, .base, 0x0000007F#32, 0x00000017#32),
   (.jal, .base, 0x0000007F#32, 0x0000006F#32), (.jalr, .base, 0x0000707F#32, 0x00000067#32),
   (.beq, .base, 0x0000707F#32, 0x00000063#32), (.bne, .base, 0x0000707F#32, 0x00001063#32),
   (.blt, .base, 0x0000707F#32, 0x00004063#32), (.bge, .base, 0x0000707F#32, 0x00005063#32),
   (.bltu, .base, 0x0000707F#32, 0x00006063#32), (.bgeu, .base, 0x0000707F#32, 0x00007063#32),
   (.lb, .base, 0x0000707F#32, 0x00000003#32), (.lh, .base, 0x0000707F#32, 0x00001003#32),
   (.lw, .base, 0x0000707F#32, 0x00002003#32), (.lbu, .base, 0x0000707F#32, 0x00004003#32),
   (.lhu, .base, 0x0000707F#32, 0x00005003#32), (.sb, .base, 0x0000707F#32, 0x00000023#32),
   (.sh, .base, 0x0000707F#32, 0x00001023#32), (.sw, .base, 0x0000707F#32, 0x00002023#32),
   (.addi, .base, 0x0000707F#32, 0x00000013#32), (.slti, .base, 0x0000707F#32, 0x00002013#32),
   (.sltiu, .base, 0x0000707F#32, 0x00003013#32), (.xori, .base, 0x0000707F#32, 0x00004013#32),
   (.ori, .base, 0x0000707F#32, 0x00006013#32), (.andi, .base, 0x0000707F#32, 0x00007013#32)]

/-- The second half of R92's table. -/
def Sys2Proof.matchTableB : List (Op × Ext × Word × Word) :=
  [(.slli, .base, 0xFE00707F#32, 0x00001013#32), (.srli, .base, 0xFE00707F#32, 0x00005013#32),
   (.srai, .base, 0xFE00707F#32, 0x40005013#32), (.add, .base, 0xFE00707F#32, 0x00000033#32),
   (.sub, .base, 0xFE00707F#32, 0x40000033#32), (.sll, .base, 0xFE00707F#32, 0x00001033#32),
   (.slt, .base, 0xFE00707F#32, 0x00002033#32), (.sltu, .base, 0xFE00707F#32, 0x00003033#32),
   (.xor, .base, 0xFE00707F#32, 0x00004033#32), (.srl, .base, 0xFE00707F#32, 0x00005033#32),
   (.sra, .base, 0xFE00707F#32, 0x40005033#32), (.or, .base, 0xFE00707F#32, 0x00006033#32),
   (.and, .base, 0xFE00707F#32, 0x00007033#32), (.fence, .base, 0x0000707F#32, 0x0000000F#32),
   (.ecall, .envcall, 0xFFF0707F#32, 0x00000073#32), (.ebreak, .base, 0xFFF0707F#32, 0x00100073#32),
   (.mul, .muldiv, 0xFE00707F#32, 0x02000033#32), (.mulh, .muldiv, 0xFE00707F#32, 0x02001033#32),
   (.mulhsu, .muldiv, 0xFE00707F#32, 0x02002033#32), (.mulhu, .muldiv, 0xFE00707F#32, 0x02003033#32),
   (.div, .muldiv, 0xFE00707F#32, 0x02004033#32), (.divu, .muldiv, 0xFE00707F#32, 0x02005033#32),
   (.rem, .muldiv, 0xFE00707F#32, 0x02006033#32), (.remu, .muldiv, 0xFE00707F#32, 0x02007033#32)]

/-- R92 (its code values are the spec's general knowledge and decision D9; log 10): the table names every
behavior, a word matches a behavior exactly when (w & mask) = match, and no word matches two. -/
def Obligations.MatchIsMaskAndValue : Prop :=
  (∀ op : Op, ∃ row ∈ matchTableA ++ matchTableB, row.1 = op) ∧
  (∀ row ∈ matchTableA ++ matchTableB, row.1.ext = row.2.1 ∧
    ∀ w : Word, row.1.key.matches (decodeFields w) = true ↔ w &&& row.2.2.1 = row.2.2.2) ∧
  ∀ (w : Word) (op op' : Op), op.key.matches (decodeFields w) = true → op'.key.matches (decodeFields w) = true →
    op = op'

/-- R82, R84 to R89 (the bit positions are the spec's general knowledge, G5 and G6; log 10): every field
as a number computed from the word, and the signed value of each immediate's 32-bit pattern. -/
def Obligations.FieldsOfEveryWord : Prop :=
  ∀ w : Word,
    let f := decodeFields w
    let n := w.toNat
    let sign : Int → Int := fun top => if 2 ^ 31 ≤ n then top else 0
    (f.opcode.toNat = n % 2 ^ 7 ∧ f.rd.val = n / 2 ^ 7 % 2 ^ 5 ∧ f.funct3.toNat = n / 2 ^ 12 % 2 ^ 3 ∧
      f.rs1.val = n / 2 ^ 15 % 2 ^ 5 ∧ f.rs2.val = n / 2 ^ 20 % 2 ^ 5 ∧ f.funct7.toNat = n / 2 ^ 25 ∧
      f.funct12.toNat = n / 2 ^ 20 ∧ f.shamt = f.rs2) ∧
    (sext f.immI).toInt = (n / 2 ^ 20 : Nat) - sign (2 ^ 12) ∧
    (sext f.immS).toInt = (n / 2 ^ 25 * 2 ^ 5 + n / 2 ^ 7 % 2 ^ 5 : Nat) - sign (2 ^ 12) ∧
    (sext f.immB).toInt = (n / 2 ^ 31 * 2 ^ 12 + n / 2 ^ 7 % 2 * 2 ^ 11 + n / 2 ^ 25 % 2 ^ 6 * 2 ^ 5
      + n / 2 ^ 8 % 2 ^ 4 * 2 : Nat) - sign (2 ^ 13) ∧
    (upperImmediate f.immU).toNat = n / 2 ^ 12 * 2 ^ 12 ∧
    (sext f.immJ).toInt = (n / 2 ^ 31 * 2 ^ 20 + n / 2 ^ 12 % 2 ^ 8 * 2 ^ 12 + n / 2 ^ 20 % 2 * 2 ^ 11
      + n / 2 ^ 21 % 2 ^ 10 * 2 : Nat) - sign (2 ^ 21)

/-- R80, R97 (derived in the spec): these words match no behavior, whatever extensions are loaded: low
bits other than 11, the other major opcodes, and the unused function codes of the used opcodes. -/
def Obligations.IllegalWordsMatchNothing : Prop :=
  ∀ (exts : List Ext) (w : Word),
    let f := decodeFields w
    (f.opcode ∉ [0b0000011#7, 0b0001111#7, 0b0010011#7, 0b0010111#7, 0b0100011#7, 0b0110011#7, 0b0110111#7,
        0b1100011#7, 0b1100111#7, 0b1101111#7, 0b1110011#7] ∨
      (f.opcode = 0b1100111#7 ∧ f.funct3 ≠ 0#3) ∨
      (f.opcode = 0b1100011#7 ∧ f.funct3 ∈ [2#3, 3#3]) ∨
      (f.opcode = 0b0000011#7 ∧ f.funct3 ∈ [3#3, 6#3, 7#3]) ∨
      (f.opcode = 0b0100011#7 ∧ f.funct3 ∉ [0#3, 1#3, 2#3]) ∨
      (f.opcode = 0b0110011#7 ∧ f.funct7 ∉ [0#7, 32#7, 1#7]) ∨
      (f.opcode = 0b0110011#7 ∧ f.funct7 = 32#7 ∧ f.funct3 ∉ [0#3, 5#3]) ∨
      (f.opcode = 0b0010011#7 ∧ f.funct3 = 1#3 ∧ f.funct7 ≠ 0#7) ∨
      (f.opcode = 0b0010011#7 ∧ f.funct3 = 5#3 ∧ f.funct7 ∉ [0#7, 32#7]) ∨
      (f.opcode = 0b0001111#7 ∧ f.funct3 ≠ 0#3) ∨
      (f.opcode = 0b1110011#7 ∧ f.funct3 ≠ 0#3) ∨
      (f.opcode = 0b1110011#7 ∧ f.funct12 ∉ [0#12, 1#12]) ∨
      w.extractLsb 1 0 ≠ 3#2) →
    dispatch exts w = .unimplemented

/-- Decode after encode: for every well-formed instruction and every extension list that loads it once,
its word decodes to it, and so do its four bytes at the head of any byte stream. -/
def Obligations.DecodeAfterEncode : Prop :=
  ∀ (i : Instr) (exts : List Ext) (rest : List Byte), i.wellFormed = true → exts.count i.op.ext = 1 →
    decodeWith exts (encode i) = .ok i ∧ decode (encode i) = some i ∧
    decodeBytes exts (toBytes 4 (encode i) ++ rest) = .ok (i, rest)

/-- Encode after decode: every word that decodes is the word of its instruction, whose operands are
well-formed; no bit of the word is lost. -/
def Obligations.EncodeAfterDecode : Prop :=
  ∀ (exts : List Ext) (w : Word) (i : Instr), decodeWith exts w = .ok i → i.wellFormed = true ∧ encode i = w

/-- A word of each family, written out from R90 and R92, decodes to its instruction (a sanity check). -/
def Obligations.WrittenOutWordsDecode : Prop :=
  decode (0b0000000_00010_00001_000_00011_0110011#32) = some (.add 3 1 2) ∧
  decode (0b111111111111_00001_000_00001_0010011#32) = some (.addi 1 1 (-1)) ∧
  decode (0b0100000_00100_00001_101_00011_0010011#32) = some (.srai 3 1 4) ∧
  decode (0b1111111_00010_00001_001_11001_1100011#32) = some (.bne 1 2 (-8)) ∧
  decode (0b0_0000001000_0_00000000_00001_1101111#32) = some (.jal 1 16) ∧
  decode (0b000000000100_00001_000_00001_1100111#32) = some (.jalr 1 1 4) ∧
  decode (0b10000000000000000000_00011_0110111#32) = some (.lui 3 0x80000) ∧
  decode (0b000000000000_00001_010_00011_0000011#32) = some (.lw 3 1 0) ∧
  decode (0b0000000_00010_00001_000_00001_0100011#32) = some (.sb 1 2 1) ∧
  decode (0b0000_1111_1111_00000_000_00000_0001111#32) = some (.fence 0 0 0x0FF) ∧
  decode (0b000000000000_00000_000_00000_1110011#32) = some (.ecall 0 0) ∧
  decode (0b000000000001_00000_000_00000_1110011#32) = some (.ebreak 0 0) ∧
  decode (0b0000001_00010_00001_100_00011_0110011#32) = some (.div 3 1 2)

/-! ### Invariants and whole-machine rules -/

/-- The invariant holds in the state right after construct. -/
def Obligations.ResetMeetsInvariant : Prop := State.reset.Inv

/-- Every step keeps the invariant: memory canonical and inside MEM_SIZE, MEM_SIZE legal, x0 zero, every
event a signed 32-bit integer. -/
def Obligations.StepKeepsInvariant : Prop := ∀ s t : State, s.Inv → step s = .next t → t.Inv

/-- Every host command keeps the invariant, a step that ends in an error and a run of any length among them. -/
def Obligations.CommandsKeepInvariant : Prop :=
  ∀ (s t : State) (c : Command) (r : Reply), s.Inv → Performs s c (t, r) → t.Inv

/-- No step refuses: every instruction of the catalog has a meaning. -/
def Obligations.StepNeverRefuses : Prop := ∀ (s : State) (r : Refusal), step s ≠ .refused r

/-- 60_exceptions.md R249 (that loadImage and the snapshot reads work while halted is decision D24 of
10_state.md R30; log 17): ebreak and ecall with x17 = 10 set halt and leave the pc, and no other step
sets it; a halted CORE takes any number of steps without a change; of the commands only reset leaves
HALTED; loadImage and the snapshot reads still work there. -/
def Obligations.HaltConvention : Prop :=
  (∀ (rd rs1 : Reg) (s : State), ∃ t, exec (.ebreak rd rs1) s = .next t ∧ t.halt = true ∧ t.pc = s.pc) ∧
  (∀ (rd rs1 : Reg) (s : State), s.readReg 17 = 10#32 →
    ∃ t, exec (.ecall rd rs1) s = .next t ∧ t.halt = true ∧ t.pc = s.pc) ∧
  (∀ s t : State, s.halt = false → step s = .next t → t.halt = true →
    (∃ rd rs1, s.nextInstr = .ok (.ebreak rd rs1)) ∨
      ((∃ rd rs1, s.nextInstr = .ok (.ecall rd rs1)) ∧ s.readReg 17 = 10#32)) ∧
  (∀ (s : State) (k : Nat), s.halt = true → Host.Core.run Sys2Proof.core k s = .next s) ∧
  (∀ (s t : State) (c : Command) (r : Reply), s.halt = true → Performs s c (t, r) → t.halt = false → c = .reset) ∧
  (∀ s : State, s.halt = true → ∃ t, Performs s .reset (t, .done .ok) ∧ t.halt = false) ∧
  ∀ s : State, s.halt = true →
    (∀ (base : Word) (bytes : List Byte), base.toNat + bytes.length ≤ s.memSize →
      ∃ t, Performs s (.loadImage base bytes) (t, .done .ok) ∧ t.halt = true ∧
        ∀ k, k < bytes.length → Performs t (.readMem (base.toNat + k)) (t, .byte (bytes.getD k 0#8))) ∧
    Performs s .readRegs (s, .regs s.readRegs) ∧ Performs s .readPc (s, .pc s.pc.toNat) ∧
    Performs s .readHalt (s, .halt true)

/-- A step changes a byte of memory only where an sb, sh or sw it executes stores (derived from the
frames of files 40 to 46 and 20_memory.md R58). -/
def Obligations.OnlyStoresChangeMemory : Prop :=
  ∀ (s t : State) (a : Nat), step s = .next t → t.mem.read a ≠ s.mem.read a →
    ∃ rs1 rs2 imm n, ((s.nextInstr = .ok (.sb rs1 rs2 imm) ∧ n = 1) ∨
        (s.nextInstr = .ok (.sh rs1 rs2 imm) ∧ n = 2) ∨ (s.nextInstr = .ok (.sw rs1 rs2 imm) ∧ n = 4)) ∧
      (s.effectiveAddress rs1 imm).toNat ≤ a ∧ a < (s.effectiveAddress rs1 imm).toNat + n

/-- A step leaves the printed events as they were, or it executes an ecall with x17 = 1 and appends the
signed value of x10 (derived from 60_exceptions.md R253, R254). -/
def Obligations.OnlyPrintCallEmits : Prop :=
  ∀ s t : State, step s = .next t → t.sink ≠ s.sink →
    (∃ rd rs1, s.nextInstr = .ok (.ecall rd rs1)) ∧ s.readReg 17 = 1#32 ∧
      t.sink = s.sink ++ [(s.readReg 10).toInt]

/-- 10_state.md R31: construct fixes MEM_SIZE and EXT_LIST, and no command changes either one. -/
def Obligations.ConfigurationFixed : Prop :=
  (∀ (size : SizeArg) (entries : List ExtEntry) (s : State), construct size entries = .ok s →
    size = .int s.memSize ∧ entries = s.extList.map .ext) ∧
  ∀ (s t : State) (c : Command) (r : Reply), Performs s c (t, r) → t.memSize = s.memSize ∧ t.extList = s.extList

/-! ### Errors, run and the other commands (60_exceptions.md, 70_reset_and_hazards.md, 20_memory.md) -/

/-- R243 (decision D6; log 6): a step that ends in an error leaves registers, pc, halt, events and
configuration as they were, and changes a byte of memory only inside a store that is partly in bounds,
to the byte that store would have written. -/
def Obligations.ErrorCommitsNothing : Prop :=
  ∀ (s t : State) (f : Fault), s.stepCommand = (t, .error f) →
    SameRegs s t ∧ t.pc = s.pc ∧ SameHaltSink s t ∧ t.memSize = s.memSize ∧ t.extList = s.extList ∧
    ∀ a, t.mem.read a ≠ s.mem.read a →
      ∃ i ea n v, s.nextInstr = .ok i ∧ storeParts s i = some (ea, n, v) ∧
        f = .bounds .store ea.toNat n ∧ ea.toNat ≤ a ∧ a < ea.toNat + n ∧ a < s.memSize ∧
        t.mem.read a = byteOf v (a - ea.toNat)

/-- R246 (decision D15; log 6): after an error that changed no byte of memory, a further step fails the same way. -/
def Obligations.ErrorRepeats : Prop :=
  ∀ (s t : State) (f : Fault), s.stepCommand = (t, .error f) → t.mem = s.mem →
    t.halt = false ∧ step t = .fault f

/-- R251 (decision D17; log 14): run with a budget agrees with that many steps of the machine, halted ones
being no-ops: it returns OK exactly when none of them is an error, in the state they lead to, and
otherwise returns the first error. -/
def Obligations.RunIsRepeatedStep : Prop :=
  ∀ (k : Nat) (s : State),
    (∀ t, Host.Core.run Sys2Proof.core k s = .next t → s.run k = (t, .ok)) ∧
    (∀ f, Host.Core.run Sys2Proof.core k s = .fault f → ∃ t, s.run k = (t, .error f)) ∧
    ((∃ t, s.run k = (t, .ok)) ↔ s.SafeFor k)

/-- 20_memory.md R61 (the outcome of an empty image is decision D19, log 22; that loadImage works in either
engine state is D24 of 10_state.md R30, log 17): loadImage writes every byte of an image that fits and nothing else; an image that
does not fit is a BoundsError and writes no byte. -/
def Obligations.LoadImageAllOrNothing : Prop :=
  ∀ (s : State) (base : Word) (bytes : List Byte),
    (base.toNat + bytes.length ≤ s.memSize →
      ∃ t, s.loadImage base bytes = .ok t ∧ Performs s (.loadImage base bytes) (t, .done .ok) ∧
        (∀ k, k < bytes.length → t.mem.read (base.toNat + k) = bytes.getD k 0#8) ∧
        (∀ a, (a < base.toNat ∨ base.toNat + bytes.length ≤ a) → t.mem.read a = s.mem.read a) ∧
        SameRegs s t ∧ t.pc = s.pc ∧ SameHaltSink s t ∧ SameConfig s t) ∧
    (¬base.toNat + bytes.length ≤ s.memSize →
      s.loadImage base bytes = .error (.bounds .image base.toNat bytes.length) ∧
      ∀ t r, Performs s (.loadImage base bytes) (t, r) →
        t = s ∧ r = .done (.error (.bounds .image base.toNat bytes.length)))

/-- 10_state.md R35, 20_memory.md R62: what the snapshot reads give; they change no state. -/
def Obligations.SnapshotReads : Prop :=
  ∀ s : State,
    (s.readRegs.length = 32 ∧ ∀ r : Reg, s.readRegs[r.val]? = some (s.readReg r).toInt) ∧
    (∀ t r, Performs s .readRegs (t, r) ↔ t = s ∧ r = .regs s.readRegs) ∧
    (∀ t r, Performs s .readPc (t, r) ↔ t = s ∧ r = .pc s.pc.toNat) ∧
    (∀ t r, Performs s .readHalt (t, r) ↔ t = s ∧ r = .halt s.halt) ∧
    (∀ a t r, a < s.memSize → (Performs s (.readMem a) (t, r) ↔ t = s ∧ r = .byte (s.mem.read a))) ∧
    (∀ a t r, s.memSize ≤ a →
      (Performs s (.readMem a) (t, r) ↔ t = s ∧ r = .done (.error (.bounds .hostRead a 1))))

/-- R252 and 30_encoding.md R102 (decision D18; that the mnemonic comes first is the model's; log 16): peek
gives, for the one behavior that matches the word at the pc, its catalog mnemonic followed by the operand
text, which is free, and the placeholder otherwise, out of bounds too; it changes no state. -/
def Obligations.PeekNeverFails : Prop :=
  ∀ s : State,
    (¬s.pc.toNat + 4 ≤ s.memSize → s.peek = Config.placeholderText) ∧
    (s.pc.toNat + 4 ≤ s.memSize →
      (∀ op, matching s.extList s.wordAtPc = [op] →
        s.peek = op.mnemonic ++ Config.operandText op.mnemonic s.wordAtPc) ∧
      ((matching s.extList s.wordAtPc).length ≠ 1 → s.peek = Config.placeholderText)) ∧
    ∀ t r, Performs s .peek (t, r) → t = s ∧ r = .text s.peek

/-- R280, R281 and 10_state.md R36 (the size bound is decision D12, the check order D13; how a size that is
no integer is written is the model's; log 5, log 19): construct succeeds exactly on an integer size in range
with three known extensions, with every piece of state at its initial value; the size is checked first, any
other size, an integer or not, is the error that carries it, and otherwise the error names the first bad entry. -/
def Obligations.ConstructResult : Prop :=
  ∀ entries : List ExtEntry,
    (∀ text : String, construct (.notInteger text) entries = .error (.configMemSize (.notInteger text))) ∧
    ∀ size : Int,
      (¬(1 ≤ size ∧ size ≤ 2 ^ 32) → construct (.int size) entries = .error (.configMemSize (.int size))) ∧
      (1 ≤ size ∧ size ≤ 2 ^ 32 →
        (∀ exts : List Ext, entries = exts.map .ext →
          ∃ s, construct (.int size) entries = .ok s ∧ (s.memSize : Int) = size ∧ s.extList = exts ∧
            (∀ r, s.readReg r = 0#32) ∧ s.pc = 0#32 ∧ s.halt = false ∧ (∀ a, s.mem.read a = 0#8) ∧
            s.sink = [] ∧ s.Inv) ∧
        (∀ (pre : List Ext) (post : List ExtEntry), entries = pre.map .ext ++ .malformed :: post →
          construct (.int size) entries = .error (.configExtension pre.length)))

/-- 70_reset_and_hazards.md R282 (that the events are kept is decision D21; log 17): reset restores the
initial values in either engine state and keeps the configuration and the printed events. -/
def Obligations.ResetRestores : Prop :=
  ∀ s : State, ∃ t, (∀ u r, Performs s .reset (u, r) ↔ u = t ∧ r = .done .ok) ∧
    (∀ r, t.readReg r = 0#32) ∧ t.pc = 0#32 ∧ t.halt = false ∧ (∀ a, t.mem.read a = 0#8) ∧
    t.memSize = s.memSize ∧ t.extList = s.extList ∧ t.sink = s.sink

/-- R285 (derived in the spec): a step after reset, with no image loaded, meets the zero word at pc 0,
which no extension list implements. R285 names no size, but 30_encoding.md R81 and 60_exceptions.md R245
check the fetch's bound first, so with MEM_SIZE below 4 the step is out of bounds instead (log 27). -/
def Obligations.StepAfterReset : Prop :=
  ∀ s : State,
    (4 ≤ s.memSize → step s.resetCommand = .fault (.unimplementedInstruction 0#32 0#32)) ∧
    (s.memSize < 4 → step s.resetCommand = .fault (.bounds .fetch 0 4))

/-! ### Pseudo-instructions (30_encoding.md R101, the spec's general knowledge G13; log 25) -/

/-- R101: the one or two instructions of `li rd, imm` leave imm in rd, for every imm and rd, and change
nothing else but the pc. -/
def Obligations.LoadImmediateExpansion : Prop :=
  ∀ (rd : Reg) (imm : Word) (s : State),
    ∃ t, execAll (Pseudo.li rd imm).expand s = .next t ∧
      WritesReg s t rd imm (s.pc + BitVec.ofNat 32 (4 * (Pseudo.li rd imm).expand.length))

/-- R101, with R158 and R172 (that jalr reads the old x1 in `call` is decision D8, log 9; that auipc adds its
pc is G17, log 10; that the addresses are taken modulo 2^32 is D3, log 4): `call` and `tail` jump to the pc-relative address with bit 0 cleared, `la` writes it, for every
displacement; `call` links in x1, `tail` overwrites x6 only. -/
def Obligations.PcRelativeExpansions : Prop :=
  ∀ (rd : Reg) (offset : Word) (s : State),
    let address := wrap32 ((s.pc.toNat : Int) + offset.toInt)
    let target := BitVec.ofNat 32 (2 * (address.toNat / 2))
    (∃ t, execAll (Pseudo.call offset).expand s = .next t ∧ WritesReg s t 1 (s.pc + 8#32) target) ∧
    (∃ t v, execAll (Pseudo.tail offset).expand s = .next t ∧ WritesReg s t 6 v target) ∧
    (∃ t, execAll (Pseudo.la rd offset).expand s = .next t ∧ WritesReg s t rd address (s.pc + 8#32))

/-- R101 (that branch targets are taken modulo 2^32 is decision D3, log 4): what the one-instruction
expansions compute and when their branches are taken. -/
def Obligations.ShortExpansions : Prop :=
  ∀ (rd rs rt : Reg) (offset : BitVec 13) (s : State),
    let a := s.readReg rs
    let b := s.readReg rt
    let writes := fun (p : Pseudo) (v : Word) => ∃ t, execAll p.expand s = .next t ∧ WritesReg s t rd v (s.pc + 4#32)
    let goes := fun (p : Pseudo) (c : Bool) => ∃ t, execAll p.expand s = .next t ∧
      WritesPc s t (wrap32 ((s.pc.toNat : Int) + if c then offset.toInt else 4))
    (∃ t, execAll Pseudo.nop.expand s = .next t ∧ WritesPc s t (s.pc + 4#32)) ∧
    writes (.mv rd rs) a ∧ writes (.not rd rs) (wrap32 (-a.toInt - 1)) ∧ writes (.neg rd rs) (wrap32 (-a.toInt)) ∧
    writes (.seqz rd rs) (bool2p (a.toInt = 0)) ∧ writes (.snez rd rs) (bool2p (a.toInt ≠ 0)) ∧
    writes (.sltz rd rs) (bool2p (a.toInt < 0)) ∧ writes (.sgtz rd rs) (bool2p (0 < a.toInt)) ∧
    goes (.beqz rs offset) (a.toInt = 0) ∧ goes (.bnez rs offset) (a.toInt ≠ 0) ∧
    goes (.blez rs offset) (a.toInt ≤ 0) ∧ goes (.bgez rs offset) (0 ≤ a.toInt) ∧
    goes (.bltz rs offset) (a.toInt < 0) ∧ goes (.bgtz rs offset) (0 < a.toInt) ∧
    goes (.bgt rs rt offset) (b.toInt < a.toInt) ∧ goes (.ble rs rt offset) (a.toInt ≤ b.toInt) ∧
    goes (.bgtu rs rt offset) (b.toNat < a.toNat) ∧ goes (.bleu rs rt offset) (a.toNat ≤ b.toNat)
end

