-- ==== Sys2Proof/Laws/Arith.lean ====
section
/-! SUPPORT. The word operations as exact integer arithmetic reduced by `wrap32` (spec/00_scope.md R10 to R12). -/

namespace Sys2Proof.Machine

theorem toInt_wrap32 (n : Int) : (wrap32 n).toInt = n.bmod (2 ^ 32) := BitVec.toInt_ofInt ..

theorem wrap32_toInt (a : Word) : wrap32 a.toInt = a := by simp [wrap32]

theorem wrap32_toNat (a : Word) : wrap32 (a.toNat : Int) = a := by simp [wrap32]

theorem wrap32_add (a b : Word) : wrap32 ((a.toNat : Int) + (b.toNat : Int)) = a + b := by
  apply BitVec.eq_of_toNat_eq; simp [wrap32, BitVec.toNat_add]; omega

theorem wrap32_sub (a b : Word) : wrap32 ((a.toNat : Int) - (b.toNat : Int)) = a - b := by
  apply BitVec.eq_of_toNat_eq; simp [wrap32, BitVec.toNat_sub]; omega

/-- Sign extension keeps the signed value. -/
theorem toInt_sext {n : Nat} (v : BitVec n) (h : n ≤ 32) : (sext v).toInt = v.toInt := by
  rw [sext, BitVec.toInt_signExtend_of_le h]

theorem wrap32_toInt_sext {n : Nat} (v : BitVec n) (h : n ≤ 32) : wrap32 v.toInt = sext v := by
  rw [← toInt_sext v h, wrap32_toInt]

/-- A word plus a sign-extended immediate, on the exact values. -/
theorem wrap32_add_sext {n : Nat} (a : Word) (v : BitVec n) (h : n ≤ 32) :
    wrap32 ((a.toNat : Int) + v.toInt) = a + sext v := by
  apply BitVec.eq_of_toInt_eq
  rw [toInt_wrap32, BitVec.toInt_add, toInt_sext v h, BitVec.toInt_eq_toNat_bmod a, Int.bmod_add_bmod]

/-- Bit `k` of a sign-extended 12-bit immediate. -/
theorem getLsbD_sext12 (imm : BitVec 12) {k : Nat} (h : k < 32) :
    (sext imm).getLsbD k = if k < 12 then imm.getLsbD k else imm.getLsbD 11 := by
  rw [sext, BitVec.getLsbD_signExtend, BitVec.msb_eq_getLsbD_last]; simp [h]

theorem shiftAmount_eq (v : Word) : shiftAmount v = v.toNat % 32 := by
  simp only [shiftAmount, BitVec.toNat_and]; exact Nat.and_two_pow_sub_one_eq_mod v.toNat 5

theorem shiftLeft_eq_mul (a : Word) (k : Nat) : a <<< k = BitVec.ofNat 32 (a.toNat * 2 ^ k) := by
  apply BitVec.eq_of_toNat_eq; simp [Nat.shiftLeft_eq]

theorem shiftRight_eq_div (a : Word) (k : Nat) : a >>> k = BitVec.ofNat 32 (a.toNat / 2 ^ k) := by
  apply BitVec.eq_of_toNat_eq
  rw [BitVec.toNat_ushiftRight, Nat.shiftRight_eq_div_pow, BitVec.toNat_ofNat,
    Nat.mod_eq_of_lt (lt_of_le_of_lt (Nat.div_le_self _ _) a.isLt)]

/-- The arithmetic right shift is floor division of the signed view. -/
theorem sshiftRight_eq_div (a : Word) (k : Nat) : a.sshiftRight k = wrap32 (a.toInt / 2 ^ k) := by
  rw [← wrap32_toInt (a.sshiftRight k), BitVec.toInt_sshiftRight, Int.shiftRight_eq_div_pow]; norm_cast

end Sys2Proof.Machine
end

