-- ==== Sys2Proof/Laws/Commands.lean ====
section
/-! SUPPORT. What construct can do: its two checks, and the state of a construct that succeeds. -/

namespace Sys2Proof.Machine

/-- The accepted sizes are the integers in range. -/
theorem SizeArg.accepted_eq_some {size : SizeArg} {n : Nat} :
    size.accepted = some n ↔ size = .int n ∧ 1 ≤ n ∧ n ≤ Config.maxMemSize := by
  cases size with
  | notInteger text => simp [SizeArg.accepted]
  | int k =>
    simp only [SizeArg.accepted, SizeArg.int.injEq]
    split
    · simp only [Option.some.injEq]; omega
    · simp only [reduceCtorEq, false_iff]; omega

theorem ext_injective : Function.Injective ExtEntry.ext := fun _ _ => ExtEntry.ext.inj

/-- A list passes exactly when it is a list of the three extensions. -/
theorem checkExtensions_eq_ok {entries : List ExtEntry} {exts : List Ext} (i : Nat) :
    checkExtensions i entries = .ok exts ↔ entries = exts.map .ext := by
  induction entries generalizing i exts with
  | nil => cases exts <;> simp [checkExtensions]
  | cons e entries ih =>
    cases e with
    | malformed => cases exts <;> simp [checkExtensions]
    | ext e =>
      cases h : checkExtensions (i + 1) entries with
      | error f =>
        have hne : ∀ exts : List Ext, entries ≠ exts.map .ext := fun exts he => by rw [(ih (i + 1)).2 he] at h; cases h
        cases exts <;> simp [checkExtensions, h, Except.map, hne]
      | ok es =>
        obtain rfl := (ih (i + 1)).1 h
        cases exts <;> simp [checkExtensions, h, Except.map, ext_injective.list_map.eq_iff]

/-- The error names the first malformed entry. -/
theorem checkExtensions_malformed (pre : List Ext) (post : List ExtEntry) (i : Nat) :
    checkExtensions i (pre.map .ext ++ .malformed :: post) = .error (.configExtension (i + pre.length)) := by
  induction pre generalizing i with
  | nil => rfl
  | cons e pre ih => simp [checkExtensions, ih, Except.map, Nat.add_comm, Nat.add_left_comm]

/-- Everything a construct that succeeds can be. -/
theorem construct_eq_ok {size : SizeArg} {entries : List ExtEntry} {s : State} :
    construct size entries = .ok s ↔
      ∃ (n : Nat) (exts : List Ext), size = .int n ∧ 1 ≤ n ∧ n ≤ Config.maxMemSize ∧ entries = exts.map .ext ∧
        s = { State.reset with memSize := n, extList := exts } := by
  cases hs : size.accepted with
  | none =>
    simp only [construct, hs, reduceCtorEq, false_iff]
    rintro ⟨n, _, rfl, h1, h2, _⟩
    rw [SizeArg.accepted_eq_some.2 ⟨rfl, h1, h2⟩] at hs; cases hs
  | some n =>
    obtain ⟨rfl, h1, h2⟩ := SizeArg.accepted_eq_some.1 hs
    cases he : checkExtensions 0 entries with
    | error f =>
      simp only [construct, hs, he, Except.map, reduceCtorEq, false_iff]
      rintro ⟨_, exts, _, _, _, h, _⟩
      rw [(checkExtensions_eq_ok 0).2 h] at he; cases he
    | ok exts =>
      obtain rfl := (checkExtensions_eq_ok 0).1 he
      simp only [construct, hs, he, Except.map, Except.ok.injEq]
      constructor
      · rintro rfl; exact ⟨n, exts, rfl, h1, h2, rfl, rfl⟩
      · rintro ⟨m, es, hm, _, _, hx, rfl⟩
        obtain rfl : n = m := by simpa using hm
        obtain rfl : exts = es := ext_injective.list_map hx
        rfl

end Sys2Proof.Machine
end

