-- ==== Sys2Proof/Laws/Decode.lean ====
section
/-! SUPPORT. The fields of an encoded word, the counting of matches, and the match keys' disjointness:
what the round trips between words and instructions rest on. -/

namespace Sys2Proof

theorem ofField_eq {b : BitVec 5} {r : Fin 32} (h : b = toField r) : ofField b = r := by subst h; rfl

@[simp] theorem ofField_toField (r : Fin 32) : ofField (toField r) = r := rfl

@[simp] theorem toField_ofField (b : BitVec 5) : toField (ofField b) = b := rfl

/-! ### The fields of an encoded word, format by format (R90) -/

theorem fields_encodeR (funct7 : BitVec 7) (rs2 rs1 : Fin 32) (funct3 : BitVec 3) (rd : Reg) (opcode : BitVec 7) :
    let f := decodeFields (encodeR funct7 rs2 rs1 funct3 rd opcode)
    f.opcode = opcode ∧ f.funct3 = funct3 ∧ f.funct7 = funct7 ∧ f.rd = rd ∧ f.rs1 = rs1 ∧ f.rs2 = rs2
      ∧ f.shamt = rs2 := by
  dsimp only [decodeFields, encodeR, BitVec.extractLsb]
  refine ⟨?_, ?_, ?_, ofField_eq ?_, ofField_eq ?_, ofField_eq ?_, ofField_eq ?_⟩
  all_goals
    apply BitVec.eq_of_getLsbD_eq; intro i hi
    simp only [BitVec.getLsbD_extractLsb', BitVec.getLsbD_append]
    interval_cases i <;> simp

theorem fields_encodeI (imm : BitVec 12) (rs1 : Reg) (funct3 : BitVec 3) (rd : Reg) (opcode : BitVec 7) :
    let f := decodeFields (encodeI imm rs1 funct3 rd opcode)
    f.opcode = opcode ∧ f.funct3 = funct3 ∧ f.funct12 = imm ∧ f.rd = rd ∧ f.rs1 = rs1 ∧ f.immI = imm := by
  dsimp only [decodeFields, encodeI, BitVec.extractLsb]
  refine ⟨?_, ?_, ?_, ofField_eq ?_, ofField_eq ?_, ?_⟩
  all_goals
    apply BitVec.eq_of_getLsbD_eq; intro i hi
    simp only [BitVec.getLsbD_extractLsb', BitVec.getLsbD_append]
    interval_cases i <;> simp

theorem fields_encodeS (imm : BitVec 12) (rs2 rs1 : Reg) (funct3 : BitVec 3) (opcode : BitVec 7) :
    let f := decodeFields (encodeS imm rs2 rs1 funct3 opcode)
    f.opcode = opcode ∧ f.funct3 = funct3 ∧ f.rs1 = rs1 ∧ f.rs2 = rs2 ∧ f.immS = imm := by
  dsimp only [decodeFields, encodeS, BitVec.extractLsb]
  refine ⟨?_, ?_, ofField_eq ?_, ofField_eq ?_, ?_⟩
  all_goals
    apply BitVec.eq_of_getLsbD_eq; intro i hi
    simp only [BitVec.getLsbD_extractLsb', BitVec.getLsbD_append]
    interval_cases i <;> simp

theorem fields_encodeB (offset : BitVec 13) (rs2 rs1 : Reg) (funct3 : BitVec 3) (opcode : BitVec 7) :
    let f := decodeFields (encodeB offset rs2 rs1 funct3 opcode)
    f.opcode = opcode ∧ f.funct3 = funct3 ∧ f.rs1 = rs1 ∧ f.rs2 = rs2
      ∧ (evenOffset offset = true → f.immB = offset) := by
  dsimp only [decodeFields, encodeB, BitVec.extractLsb]
  refine ⟨?_, ?_, ofField_eq ?_, ofField_eq ?_, fun even => ?_⟩
  all_goals
    apply BitVec.eq_of_getLsbD_eq; intro i hi
    simp only [BitVec.getLsbD_extractLsb', BitVec.getLsbD_append]
    interval_cases i <;> simp
  simpa [evenOffset] using even

theorem fields_encodeU (imm20 : BitVec 20) (rd : Reg) (opcode : BitVec 7) :
    let f := decodeFields (encodeU imm20 rd opcode)
    f.opcode = opcode ∧ f.rd = rd ∧ f.immU = imm20 := by
  dsimp only [decodeFields, encodeU, BitVec.extractLsb]
  refine ⟨?_, ofField_eq ?_, ?_⟩
  all_goals
    apply BitVec.eq_of_getLsbD_eq; intro i hi
    simp only [BitVec.getLsbD_extractLsb', BitVec.getLsbD_append]
    interval_cases i <;> simp

theorem fields_encodeJ (offset : BitVec 21) (rd : Reg) (opcode : BitVec 7) :
    let f := decodeFields (encodeJ offset rd opcode)
    f.opcode = opcode ∧ f.rd = rd ∧ (evenOffset offset = true → f.immJ = offset) := by
  dsimp only [decodeFields, encodeJ, BitVec.extractLsb]
  refine ⟨?_, ofField_eq ?_, fun even => ?_⟩
  all_goals
    apply BitVec.eq_of_getLsbD_eq; intro i hi
    simp only [BitVec.getLsbD_extractLsb', BitVec.getLsbD_append]
    interval_cases i <;> simp
  simpa [evenOffset] using even

/-! ### Match keys (R91, R92) -/

/-- Two keys differ in a field that both test. -/
def Key.apart (k l : Key) : Bool :=
  let differ {n : Nat} : Option (BitVec n) → Option (BitVec n) → Bool
    | some a, some b => a != b
    | _, _ => false
  k.opcode != l.opcode || differ k.funct3 l.funct3 || differ k.funct7 l.funct7 || differ k.funct12 l.funct12

/-- Every behavior, in the order of R92. -/
def allOps : List Op := catalog fullExtensions

theorem mem_allOps (op : Op) : op ∈ allOps := by cases op <;> decide

theorem keys_apart : ∀ op ∈ allOps, ∀ op' ∈ allOps, op ≠ op' → op.key.apart op'.key = true := by decide

theorem Key.tests_eq {n : Nat} {a b v : BitVec n} (ha : Key.tests (some a) v = true) (hb : Key.tests (some b) v = true) :
    a = b := by
  simp only [Key.tests, beq_iff_eq] at ha hb; rw [ha, hb]

/-- Keys that are apart match no common word. -/
theorem Key.not_both {k l : Key} {f : DecodedFields} (h : k.apart l = true) (hk : k.matches f = true) :
    l.matches f = false := by
  by_contra hl
  rw [Bool.not_eq_false] at hl
  simp only [Key.matches, Bool.and_eq_true, beq_iff_eq] at hk hl
  obtain ⟨⟨⟨ho, h3⟩, h7⟩, h12⟩ := hk
  obtain ⟨⟨⟨ho', h3'⟩, h7'⟩, h12'⟩ := hl
  simp only [Key.apart, Bool.or_eq_true, bne_iff_ne] at h
  rcases h with ((h | h) | h) | h
  · exact h (ho.trans ho'.symm)
  all_goals
    split at h
    · next a b ea eb =>
      simp only [ea, eb] at *
      exact (bne_iff_ne.1 h) (Key.tests_eq ‹_› ‹_›)
    · cases h

/-- No word matches two behaviors (R92). -/
theorem op_unique {op op' : Op} {f : DecodedFields} (h : op.key.matches f = true) (h' : op'.key.matches f = true) :
    op = op' := by
  by_contra hne
  exact Bool.false_ne_true ((Key.not_both (keys_apart _ (mem_allOps op) _ (mem_allOps op') hne) h).symm.trans h')

/-! ### Counting the matches (R94, R95) -/

/-- An extension's behaviors hold an operation once if it is its own, and never otherwise. -/
theorem count_behaviors (e : Ext) (op : Op) : e.behaviors.count op = if e = op.ext then 1 else 0 := by
  cases e <;> cases op <;> decide

theorem count_catalog (exts : List Ext) (op : Op) : (catalog exts).count op = exts.count op.ext := by
  induction exts with
  | nil => rfl
  | cons e exts ih =>
    have : catalog (e :: exts) = e.behaviors ++ catalog exts := rfl
    rw [this, List.count_append, ih, count_behaviors, List.count_cons]
    by_cases h : e = op.ext <;> simp [h, Nat.add_comm]

/-- The matches of a word that some behavior matches: that behavior, as often as its extension is loaded. -/
theorem matching_of_matches {exts : List Ext} {w : Word} {op : Op} (h : op.key.matches (decodeFields w) = true) :
    matching exts w = List.replicate (exts.count op.ext) op := by
  rw [← count_catalog, ← List.filter_eq]
  unfold matching
  refine List.filter_congr fun op' _ => ?_
  by_cases heq : op' = op
  · simp [heq, h]
  · simp only [heq, decide_false]
    exact Bool.eq_false_iff.2 fun h' => heq (op_unique h' h)

/-- Dispatch of a word whose behavior is loaded exactly once. -/
theorem dispatch_of_matches {exts : List Ext} {w : Word} {op : Op} (h : op.key.matches (decodeFields w) = true)
    (once : exts.count op.ext = 1) : dispatch exts w = .found op := by
  unfold dispatch; rw [matching_of_matches h, once]; rfl

/-- What dispatch finds is a behavior of the catalog that matches the word and is loaded exactly once. -/
theorem dispatch_found {exts : List Ext} {w : Word} {op : Op} (h : dispatch exts w = .found op) :
    op.key.matches (decodeFields w) = true ∧ exts.count op.ext = 1 := by
  unfold dispatch at h
  split at h
  · cases h
  · next op' hm =>
    cases h
    have hop : op.key.matches (decodeFields w) = true := by
      have : op ∈ matching exts w := by rw [hm]; simp
      exact (List.mem_filter.1 this).2
    refine ⟨hop, ?_⟩
    have := congrArg List.length (matching_of_matches (exts := exts) hop)
    rw [hm] at this; simpa using this.symm
  · cases h

/-- Decoding gives an instruction exactly when dispatch finds its behavior. -/
theorem decodeWith_ok {exts : List Ext} {w : Word} {i : Instr} :
    decodeWith exts w = .ok i ↔ ∃ op, dispatch exts w = .found op ∧ i = op.instr (decodeFields w) := by
  cases hd : dispatch exts w <;> simp [decodeWith, hd, eq_comm]

end Sys2Proof
end

