-- ==== Sys2Proof/Laws/Memory.lean ====
section
/-! SUPPORT. Reading after writing, and that every memory operation keeps the canonical form. -/

namespace Sys2Proof.Machine

@[simp] theorem Memory.read_nil (a : Nat) : Memory.read [] a = Memory.unlisted := rfl

theorem Memory.read_cons (c : Host.Cell) (m : Memory) (a : Nat) :
    Memory.read (c :: m) a = if c.1 = a then c.2 else Memory.read m a := rfl

theorem Memory.erase_cons (c : Host.Cell) (m : Memory) (b : Nat) :
    Memory.erase (c :: m) b = if c.1 = b then Memory.erase m b else c :: Memory.erase m b := by
  by_cases h : c.1 = b <;> simp [Memory.erase, h]

theorem Memory.read_erase (m : Memory) (a b : Nat) :
    (m.erase b).read a = if a = b then Memory.unlisted else m.read a := by
  induction m with
  | nil => simp [Memory.erase]
  | cons c m ih =>
    rw [Memory.erase_cons, Memory.read_cons]
    by_cases hb : c.1 = b
    · rw [if_pos hb, ih]; by_cases ha : a = b
      · rw [if_pos ha, if_pos ha]
      · rw [if_neg ha, if_neg ha, if_neg (fun h => ha (h.symm.trans hb))]
    · rw [if_neg hb, Memory.read_cons, ih]; by_cases ha : a = b
      · subst ha; simp [hb]
      · simp [ha]

/-- A listed byte is found whatever the list, when the address was not listed before. -/
theorem Memory.read_insertCell (m : Memory) (a b : Nat) (v : Byte) (h : ∀ c ∈ m, c.1 ≠ b) :
    (Memory.insertCell b v m).read a = if a = b then v else m.read a := by
  induction m with
  | nil => simp [Memory.insertCell, Memory.read_cons, eq_comm]
  | cons c m ih =>
    have hc : c.1 ≠ b := h c (by simp)
    unfold Memory.insertCell; split
    · simp [Memory.read_cons, eq_comm]
    · rw [Memory.read_cons, Memory.read_cons, ih fun d hd => h d (by simp [hd])]
      by_cases ha : a = b
      · subst ha; simp [hc]
      · simp [ha]

theorem Memory.ne_of_mem_erase {m : Memory} {b : Nat} : ∀ c ∈ m.erase b, c.1 ≠ b := by
  intro c hc; simpa using (List.mem_filter.1 hc).2

/-- Read after write, at any two addresses and for any list. -/
theorem Memory.read_write (m : Memory) (a b : Nat) (v : Byte) :
    (m.write b v).read a = if a = b then v else m.read a := by
  unfold Memory.write; split
  · next h => rw [Memory.read_erase, h]
  · rw [Memory.read_insertCell _ _ _ _ Memory.ne_of_mem_erase, Memory.read_erase]
    split <;> rfl

theorem Memory.wf_nil : Memory.wf [] := by decide

theorem Memory.wf_erase {m : Memory} (h : m.wf) (a : Nat) : (m.erase a).wf :=
  ⟨h.1.filter _, fun c hc => h.2 c (List.mem_filter.1 hc).1⟩

theorem Memory.mem_insertCell {a : Nat} {v : Byte} {m : Memory} {c : Host.Cell} :
    c ∈ Memory.insertCell a v m ↔ c = (a, v) ∨ c ∈ m := by
  induction m with
  | nil => simp [Memory.insertCell]
  | cons d m ih =>
    unfold Memory.insertCell; split
    · simp
    · simp only [List.mem_cons, ih]; tauto

theorem Memory.wf_insertCell {m : Memory} (h : m.wf) {a : Nat} {v : Byte} (hv : v ≠ Memory.unlisted)
    (ha : ∀ c ∈ m, c.1 ≠ a) : (Memory.insertCell a v m).wf := by
  refine ⟨?_, fun c hc => ?_⟩
  · obtain ⟨hs, -⟩ := h
    induction m with
    | nil => simp [Memory.insertCell]
    | cons d m ih =>
      rw [List.pairwise_cons] at hs
      have hd : d.1 ≠ a := ha d (by simp)
      unfold Memory.insertCell; split
      · next hlt =>
        refine List.pairwise_cons.2 ⟨fun c hc => ?_, List.pairwise_cons.2 hs⟩
        rcases List.mem_cons.1 hc with rfl | hc
        · exact hlt
        · exact hlt.trans (hs.1 c hc)
      · next hnlt =>
        refine List.pairwise_cons.2 ⟨fun c hc => ?_, ih (fun c hc => ha c (by simp [hc])) hs.2⟩
        rcases Memory.mem_insertCell.1 hc with rfl | hc
        · simp only; omega
        · exact hs.1 c hc
  · rcases Memory.mem_insertCell.1 hc with rfl | hc
    · exact hv
    · exact h.2 c hc

/-- A write keeps the canonical form. -/
theorem Memory.wf_write {m : Memory} (h : m.wf) (a : Nat) (v : Byte) : (m.write a v).wf := by
  unfold Memory.write; split
  · exact Memory.wf_erase h a
  · next hv => exact Memory.wf_insertCell (Memory.wf_erase h a) hv Memory.ne_of_mem_erase

/-- A write lists no address but its own and those listed before. -/
theorem Memory.mem_write {m : Memory} {a : Nat} {v : Byte} {c : Host.Cell} (h : c ∈ m.write a v) :
    c.1 = a ∨ c ∈ m := by
  unfold Memory.write at h; split at h
  · exact .inr (List.mem_filter.1 h).1
  · rcases Memory.mem_insertCell.1 h with rfl | h
    · exact .inl rfl
    · exact .inr (List.mem_filter.1 h).1

/-- Read after a run of writes. -/
theorem Memory.read_writeBytes (bs : List Byte) (m : Memory) (a b : Nat) :
    (m.writeBytes b bs).read a = if b ≤ a ∧ a < b + bs.length then bs.getD (a - b) 0#8 else m.read a := by
  induction bs generalizing m b with
  | nil => rw [if_neg (by simp only [List.length_nil]; omega)]; rfl
  | cons x bs ih =>
    rw [Memory.writeBytes, ih, Memory.read_write, List.length_cons]
    rcases Nat.lt_trichotomy a b with h | rfl | h
    · rw [if_neg (by omega), if_neg (by omega), if_neg (by omega)]
    · rw [if_neg (by omega), if_pos rfl, if_pos (by omega), Nat.sub_self]; rfl
    · rw [if_neg (c := a = b) (by omega), show a - b = (a - (b + 1)) + 1 by omega, List.getD_cons_succ]
      exact if_congr (by omega) rfl rfl

theorem Memory.wf_writeBytes (bs : List Byte) {m : Memory} (h : m.wf) (a : Nat) : (m.writeBytes a bs).wf := by
  induction bs generalizing m a with
  | nil => exact h
  | cons x bs ih => exact ih (Memory.wf_write h a x) _

/-- Writing inside a size keeps every listed address inside it. -/
theorem Memory.inside_write {m : Memory} {size a : Nat} {v : Byte} (h : ∀ c ∈ m, c.1 < size) (ha : a < size) :
    ∀ c ∈ m.write a v, c.1 < size := fun c hc => by
  rcases Memory.mem_write hc with rfl | hc
  · exact ha
  · exact h c hc

theorem Memory.inside_writeBytes (bs : List Byte) {m : Memory} {size a : Nat} (h : ∀ c ∈ m, c.1 < size)
    (ha : a + bs.length ≤ size) : ∀ c ∈ m.writeBytes a bs, c.1 < size := by
  induction bs generalizing m a with
  | nil => exact h
  | cons x bs ih =>
    rw [List.length_cons] at ha
    exact ih (Memory.inside_write h (by omega)) (by omega)

@[simp] theorem Memory.length_readBytes (m : Memory) (a n : Nat) : (m.readBytes a n).length = n := by
  simp [Memory.readBytes]

@[simp] theorem length_toBytes (n : Nat) (v : Word) : (toBytes n v).length = n := by simp [toBytes]

theorem getD_toBytes {n i : Nat} (v : Word) (h : i < n) : (toBytes n v).getD i 0#8 = byteOf v i := by
  simp [toBytes, List.getD, h]

/-- Byte by byte, what a store of a pattern leaves. -/
theorem Memory.read_writeBytes_toBytes (m : Memory) (v : Word) (n a b : Nat) :
    (m.writeBytes b (toBytes n v)).read a =
      if b ≤ a ∧ a < b + n then byteOf v (a - b) else m.read a := by
  rw [Memory.read_writeBytes, length_toBytes]
  split
  · next h => exact getD_toBytes v (by omega)
  · rfl

/-- Two memories that read alike give the same bytes to every access. -/
theorem Memory.readBytes_congr {m m' : Memory} {a n : Nat} (h : ∀ i, i < n → m'.read (a + i) = m.read (a + i)) :
    m'.readBytes a n = m.readBytes a n := by
  refine List.map_congr_left fun i hi => h i (List.mem_range.1 hi)

/-- One, two and four bytes assembled little-endian, the lowest address least significant (R52, R54). -/
theorem ofBytes_one (b0 : Byte) : ofBytes [b0] = b0.setWidth 32 := by simp [ofBytes]

theorem ofBytes_two (b0 b1 : Byte) : ofBytes [b0, b1] = (b1 ++ b0).setWidth 32 := by
  apply BitVec.eq_of_getLsbD_eq; intro i hi
  simp only [ofBytes, BitVec.getLsbD_or, BitVec.getLsbD_setWidth, BitVec.getLsbD_shiftLeft, BitVec.getLsbD_append]
  by_cases h : i < 8
  · simp [h, hi]
  · have : b0.getLsbD i = false := BitVec.getLsbD_of_ge _ _ (by omega)
    simp [h, hi, this]; omega

theorem ofBytes_four (b0 b1 b2 b3 : Byte) : ofBytes [b0, b1, b2, b3] = b3 ++ b2 ++ b1 ++ b0 := by
  apply BitVec.eq_of_getLsbD_eq; intro i hi
  simp only [ofBytes, BitVec.getLsbD_or, BitVec.getLsbD_setWidth, BitVec.getLsbD_shiftLeft, BitVec.getLsbD_append]
  interval_cases i <;> simp

end Sys2Proof.Machine
end

