-- ==== Sys2Proof/Laws/State.lean ====
section
/-! SUPPORT. One lemma per field per update of State, and what each update does to the register reads. -/

namespace Sys2Proof.Machine

variable (s : State)

/-! ### setPc -/

@[simp] theorem State.setPc_regs (target : Word) : (s.setPc target).regs = s.regs := rfl
@[simp] theorem State.setPc_pc (target : Word) : (s.setPc target).pc = target := rfl
@[simp] theorem State.setPc_halt (target : Word) : (s.setPc target).halt = s.halt := rfl
@[simp] theorem State.setPc_mem (target : Word) : (s.setPc target).mem = s.mem := rfl
@[simp] theorem State.setPc_memSize (target : Word) : (s.setPc target).memSize = s.memSize := rfl
@[simp] theorem State.setPc_extList (target : Word) : (s.setPc target).extList = s.extList := rfl
@[simp] theorem State.setPc_sink (target : Word) : (s.setPc target).sink = s.sink := rfl
@[simp] theorem State.setPc_storeDraws (target : Word) : (s.setPc target).storeDraws = s.storeDraws := rfl

/-! ### advance -/

@[simp] theorem State.advance_regs : (s.advance).regs = s.regs := rfl
@[simp] theorem State.advance_pc : (s.advance).pc = s.pc + 4#32 := rfl
@[simp] theorem State.advance_halt : (s.advance).halt = s.halt := rfl
@[simp] theorem State.advance_mem : (s.advance).mem = s.mem := rfl
@[simp] theorem State.advance_memSize : (s.advance).memSize = s.memSize := rfl
@[simp] theorem State.advance_extList : (s.advance).extList = s.extList := rfl
@[simp] theorem State.advance_sink : (s.advance).sink = s.sink := rfl
@[simp] theorem State.advance_storeDraws : (s.advance).storeDraws = s.storeDraws := rfl

/-! ### setHalt -/

@[simp] theorem State.setHalt_regs : (s.setHalt).regs = s.regs := rfl
@[simp] theorem State.setHalt_pc : (s.setHalt).pc = s.pc := rfl
@[simp] theorem State.setHalt_halt : (s.setHalt).halt = true := rfl
@[simp] theorem State.setHalt_mem : (s.setHalt).mem = s.mem := rfl
@[simp] theorem State.setHalt_memSize : (s.setHalt).memSize = s.memSize := rfl
@[simp] theorem State.setHalt_extList : (s.setHalt).extList = s.extList := rfl
@[simp] theorem State.setHalt_sink : (s.setHalt).sink = s.sink := rfl
@[simp] theorem State.setHalt_storeDraws : (s.setHalt).storeDraws = s.storeDraws := rfl

/-! ### emit -/

@[simp] theorem State.emit_regs (v : Int) : (s.emit v).regs = s.regs := rfl
@[simp] theorem State.emit_pc (v : Int) : (s.emit v).pc = s.pc := rfl
@[simp] theorem State.emit_halt (v : Int) : (s.emit v).halt = s.halt := rfl
@[simp] theorem State.emit_mem (v : Int) : (s.emit v).mem = s.mem := rfl
@[simp] theorem State.emit_memSize (v : Int) : (s.emit v).memSize = s.memSize := rfl
@[simp] theorem State.emit_extList (v : Int) : (s.emit v).extList = s.extList := rfl
@[simp] theorem State.emit_sink (v : Int) : (s.emit v).sink = s.sink ++ [v] := rfl
@[simp] theorem State.emit_storeDraws (v : Int) : (s.emit v).storeDraws = s.storeDraws := rfl

/-! ### clampX0 -/

@[simp] theorem State.clampX0_regs : (s.clampX0).regs = s.regs.set 0 0#32 := rfl
@[simp] theorem State.clampX0_pc : (s.clampX0).pc = s.pc := rfl
@[simp] theorem State.clampX0_halt : (s.clampX0).halt = s.halt := rfl
@[simp] theorem State.clampX0_mem : (s.clampX0).mem = s.mem := rfl
@[simp] theorem State.clampX0_memSize : (s.clampX0).memSize = s.memSize := rfl
@[simp] theorem State.clampX0_extList : (s.clampX0).extList = s.extList := rfl
@[simp] theorem State.clampX0_sink : (s.clampX0).sink = s.sink := rfl
@[simp] theorem State.clampX0_storeDraws : (s.clampX0).storeDraws = s.storeDraws := rfl

/-! ### resetCommand -/

@[simp] theorem State.resetCommand_regs : (s.resetCommand).regs = Vector.replicate 32 0#32 := rfl
@[simp] theorem State.resetCommand_pc : (s.resetCommand).pc = 0#32 := rfl
@[simp] theorem State.resetCommand_halt : (s.resetCommand).halt = false := rfl
@[simp] theorem State.resetCommand_mem : (s.resetCommand).mem = [] := rfl
@[simp] theorem State.resetCommand_memSize : (s.resetCommand).memSize = s.memSize := rfl
@[simp] theorem State.resetCommand_extList : (s.resetCommand).extList = s.extList := rfl
@[simp] theorem State.resetCommand_sink : (s.resetCommand).sink = s.sink := rfl
@[simp] theorem State.resetCommand_storeDraws : (s.resetCommand).storeDraws = s.storeDraws := rfl

/-! ### tornStore -/

@[simp] theorem State.tornStore_regs (a : Word) (n : Nat) (v : Word) : (s.tornStore a n v).regs = s.regs := rfl
@[simp] theorem State.tornStore_pc (a : Word) (n : Nat) (v : Word) : (s.tornStore a n v).pc = s.pc := rfl
@[simp] theorem State.tornStore_halt (a : Word) (n : Nat) (v : Word) : (s.tornStore a n v).halt = s.halt := rfl
@[simp] theorem State.tornStore_memSize (a : Word) (n : Nat) (v : Word) : (s.tornStore a n v).memSize = s.memSize := rfl
@[simp] theorem State.tornStore_extList (a : Word) (n : Nat) (v : Word) : (s.tornStore a n v).extList = s.extList := rfl
@[simp] theorem State.tornStore_sink (a : Word) (n : Nat) (v : Word) : (s.tornStore a n v).sink = s.sink := rfl
@[simp] theorem State.tornStore_storeDraws (a : Word) (n : Nat) (v : Word) : (s.tornStore a n v).storeDraws = s.storeDraws + 1 := rfl

/-! ### writeReg -/

@[simp] theorem State.writeReg_pc (rd : Reg) (v : Word) : (s.writeReg rd v).pc = s.pc := by
  unfold State.writeReg; split <;> rfl
@[simp] theorem State.writeReg_halt (rd : Reg) (v : Word) : (s.writeReg rd v).halt = s.halt := by
  unfold State.writeReg; split <;> rfl
@[simp] theorem State.writeReg_mem (rd : Reg) (v : Word) : (s.writeReg rd v).mem = s.mem := by
  unfold State.writeReg; split <;> rfl
@[simp] theorem State.writeReg_memSize (rd : Reg) (v : Word) : (s.writeReg rd v).memSize = s.memSize := by
  unfold State.writeReg; split <;> rfl
@[simp] theorem State.writeReg_extList (rd : Reg) (v : Word) : (s.writeReg rd v).extList = s.extList := by
  unfold State.writeReg; split <;> rfl
@[simp] theorem State.writeReg_sink (rd : Reg) (v : Word) : (s.writeReg rd v).sink = s.sink := by
  unfold State.writeReg; split <;> rfl
@[simp] theorem State.writeReg_storeDraws (rd : Reg) (v : Word) : (s.writeReg rd v).storeDraws = s.storeDraws := by
  unfold State.writeReg; split <;> rfl

/-! ### Register reads (10_state.md R22, R24) -/

@[simp] theorem State.readReg_zero : s.readReg 0 = 0#32 := rfl

theorem State.readReg_congr {s t : State} (h : t.regs = s.regs) (r : Reg) : t.readReg r = s.readReg r := by
  unfold State.readReg; rw [h]

@[simp] theorem State.readReg_setPc (target : Word) (r : Reg) : (s.setPc target).readReg r = s.readReg r := rfl

@[simp] theorem State.readReg_advance (r : Reg) : s.advance.readReg r = s.readReg r := rfl

@[simp] theorem State.readReg_setHalt (r : Reg) : s.setHalt.readReg r = s.readReg r := rfl

@[simp] theorem State.readReg_emit (v : Int) (r : Reg) : (s.emit v).readReg r = s.readReg r := rfl

/-- A write changes no register but the one named, and x0 still reads 0. -/
theorem State.readReg_writeReg (rd : Reg) (v : Word) (r : Reg) :
    (s.writeReg rd v).readReg r = if r = 0 then 0#32 else if r = rd then v else s.readReg r := by
  unfold State.readReg State.writeReg
  by_cases hr : r = 0
  · simp [hr]
  by_cases hd : rd = 0
  · subst hd; simp [hr]
  · have : rd.val = r.val ↔ r = rd := by rw [eq_comm, Fin.val_inj]
    simp [hr, hd, Vector.getElem_set, this]

/-- The clamp changes no register read. -/
@[simp] theorem State.readReg_clampX0 (r : Reg) : s.clampX0.readReg r = s.readReg r := by
  unfold State.readReg State.clampX0
  by_cases hr : r = 0
  · simp [hr]
  · have : ¬(0 = r.val) := fun h => hr (Fin.ext h.symm)
    simp [hr, this]

/-- A write keeps the stored x0. -/
theorem State.writeReg_regs_zero (rd : Reg) (v : Word) : (s.writeReg rd v).regs[0] = s.regs[0] := by
  unfold State.writeReg; split
  · rfl
  · next h =>
    have : ¬(rd.val = 0) := fun h' => h (Fin.ext h')
    simp [this]

end Sys2Proof.Machine
end

