-- ==== Sys2Proof/Laws/Ops.lean ====
section
/-! SUPPORT. One lemma for each shared operation: everything it can do, in the terms of Safety.lean. -/

namespace Sys2Proof.Machine

variable (s : State)

theorem OnlyReg.writeReg (rd : Reg) (v : Word) : OnlyReg s (s.writeReg rd v) rd v := s.readReg_writeReg rd v

theorem SameConfig.refl : SameConfig s s := ⟨rfl, rfl, rfl⟩

/-- `retire` writes rd and advances. -/
theorem retire_writesReg (rd : Reg) (v : Word) :
    ∃ t, retire rd v s = .next t ∧ WritesReg s t rd v (s.pc + 4#32) := by
  refine ⟨_, rfl, OnlyReg.writeReg s rd v, ?_, fun a => ?_, ?_, ?_⟩
  · simp
  · simp
  · simp [SameHaltSink]
  · exact ⟨by simp, by simp, by simp⟩

/-- `branch` sets the pc to the target or to the next instruction. -/
theorem branch_writesPc (taken : Bool) (offset : BitVec 13) :
    ∃ t, branch taken offset s = .next t ∧ WritesPc s t (if taken then s.pc + sext offset else s.pc + 4#32) := by
  refine ⟨_, rfl, ?_⟩
  cases taken
  · exact ⟨fun _ => rfl, rfl, fun _ => rfl, ⟨rfl, rfl⟩, ⟨rfl, rfl, rfl⟩⟩
  · exact ⟨fun _ => rfl, rfl, fun _ => rfl, ⟨rfl, rfl⟩, ⟨rfl, rfl, rfl⟩⟩

/-- `jump` writes the link and sets the pc. -/
theorem jump_writesReg (rd : Reg) (target : Word) :
    ∃ t, jump rd target s = .next t ∧ WritesReg s t rd (s.pc + 4#32) target := by
  refine ⟨_, rfl, OnlyReg.writeReg s rd _, rfl, fun a => ?_, ?_, ?_⟩
  · simp
  · simp [SameHaltSink]
  · exact ⟨by simp, by simp, by simp⟩

theorem State.inBounds_iff {a : Word} {n : Nat} : s.inBounds a n = true ↔ a.toNat + n ≤ s.memSize := by
  simp [State.inBounds]

/-- `load` in bounds writes the extended value. -/
theorem load_writesReg {rd : Reg} {ea : Word} {n : Nat} {extend : Word → Word} (h : ea.toNat + n ≤ s.memSize) :
    ∃ t, load rd ea n extend s = .next t ∧
      WritesReg s t rd (extend (ofBytes (s.mem.readBytes ea.toNat n))) (s.pc + 4#32) := by
  have : load rd ea n extend s = retire rd (extend (ofBytes (s.mem.readBytes ea.toNat n))) s := by
    simp [load, State.memRead, State.inBounds, h]
  rw [this]; exact retire_writesReg s rd _

/-- `load` out of bounds is a BoundsError. -/
theorem load_fault {rd : Reg} {ea : Word} {n : Nat} {extend : Word → Word} (h : ¬ea.toNat + n ≤ s.memSize) :
    load rd ea n extend s = .fault (.bounds .load ea.toNat n) := by
  simp [load, State.memRead, State.inBounds, h, raise]

/-- `store` in bounds writes the bytes, and only them. -/
theorem store_writesMem {ea : Word} {n : Nat} {v : Word} (h : ea.toNat + n ≤ s.memSize) :
    ∃ t, store ea n v s = .next t ∧ WritesMem s t ea n v := by
  refine ⟨({ s with mem := s.mem.writeBytes ea.toNat (toBytes n v) } : State).advance, ?_, ?_⟩
  · simp [store, State.memWrite, State.inBounds, h]
  · refine ⟨fun _ => rfl, rfl, ⟨fun i hi => ?_, fun a ha => ?_⟩, ⟨rfl, rfl⟩, ⟨rfl, rfl, rfl⟩⟩
    · rw [State.advance_mem, Memory.read_writeBytes_toBytes, if_pos ⟨by omega, by omega⟩, Nat.add_sub_cancel_left]
    · rw [State.advance_mem, Memory.read_writeBytes_toBytes, if_neg (by omega)]

/-- `store` out of bounds is a BoundsError. -/
theorem store_fault {ea : Word} {n : Nat} {v : Word} (h : ¬ea.toNat + n ≤ s.memSize) :
    store ea n v s = .fault (.bounds .store ea.toNat n) := by
  simp [store, State.memWrite, State.inBounds, h, raise]

/-- A store that answers a next state was in bounds. -/
theorem store_next {ea : Word} {n : Nat} {v : Word} {t : State} (h : store ea n v s = .next t) :
    ea.toNat + n ≤ s.memSize ∧ t = ({ s with mem := s.mem.writeBytes ea.toNat (toBytes n v) } : State).advance := by
  by_cases hb : ea.toNat + n ≤ s.memSize
  · refine ⟨hb, ?_⟩
    have : store ea n v s = .next ({ s with mem := s.mem.writeBytes ea.toNat (toBytes n v) } : State).advance := by
      simp [store, State.memWrite, State.inBounds, hb]
    rw [this] at h; exact (Host.Outcome.next.inj h).symm
  · rw [store_fault s hb] at h; cases h

/-- A load that answers a next state wrote rd and advanced. -/
theorem load_next {rd : Reg} {ea : Word} {n : Nat} {extend : Word → Word} {t : State}
    (h : load rd ea n extend s = .next t) : ∃ v, t = (s.writeReg rd v).advance := by
  by_cases hb : ea.toNat + n ≤ s.memSize
  · refine ⟨extend (ofBytes (s.mem.readBytes ea.toNat n)), ?_⟩
    simp [load, State.memRead, State.inBounds, hb, retire] at h; exact h.symm
  · rw [load_fault s hb] at h; cases h

/-! ### The bytes of a torn store (20_memory.md R53) -/

theorem State.read_tornByte (m : Memory) (a b : Nat) (new : Byte) :
    (s.tornByte m b new).read a =
      if a = b ∧ b < s.memSize ∧ Config.storeFaultTakesNew s.storeDraws b = true then new else m.read a := by
  unfold State.tornByte; split
  · next h => rw [Memory.read_write]; simp [h.1, h.2]
  · next h => rw [if_neg (fun h' => h h'.2)]

theorem State.tornStore_mem_succ (a : Word) (n : Nat) (v : Word) :
    (s.tornStore a (n + 1) v).mem = s.tornByte (s.tornStore a n v).mem (a.toNat + n) (byteOf v n) := by
  simp [State.tornStore, List.range_succ]

/-- Byte by byte, what a torn store leaves: the new byte where the draw takes it, the old one elsewhere. -/
theorem State.read_tornStore (ea : Word) (n : Nat) (v : Word) (a : Nat) :
    (s.tornStore ea n v).mem.read a =
      if (ea.toNat ≤ a ∧ a < ea.toNat + n) ∧ a < s.memSize ∧ Config.storeFaultTakesNew s.storeDraws a = true
      then byteOf v (a - ea.toNat) else s.mem.read a := by
  induction n with
  | zero => rw [if_neg (by omega)]; rfl
  | succ n ih =>
    rw [State.tornStore_mem_succ, State.read_tornByte, ih]
    by_cases ha : a = ea.toNat + n
    · subst ha
      by_cases hd : ea.toNat + n < s.memSize ∧ Config.storeFaultTakesNew s.storeDraws (ea.toNat + n) = true
      · rw [if_pos ⟨rfl, hd⟩, if_pos ⟨⟨by omega, by omega⟩, hd⟩, Nat.add_sub_cancel_left]
      · rw [if_neg (fun h => hd h.2), if_neg (by omega), if_neg (fun h => hd h.2)]
    · rw [if_neg (fun h => ha h.1)]
      exact if_congr (and_congr_left fun _ => by omega) rfl rfl

theorem State.wf_tornByte {m : Memory} (h : m.wf) (a : Nat) (new : Byte) : (s.tornByte m a new).wf := by
  unfold State.tornByte; split
  · exact Memory.wf_write h a new
  · exact h

theorem State.inside_tornByte {m : Memory} (h : ∀ c ∈ m, c.1 < s.memSize) (a : Nat) (new : Byte) :
    ∀ c ∈ s.tornByte m a new, c.1 < s.memSize := by
  unfold State.tornByte; split
  · next hd => exact Memory.inside_write h hd.1
  · exact h

/-- A torn store keeps the canonical form and stays inside MEM_SIZE. -/
theorem State.wf_tornStore (h : s.mem.wf) (hi : ∀ c ∈ s.mem, c.1 < s.memSize) (ea : Word) (n : Nat) (v : Word) :
    (s.tornStore ea n v).mem.wf ∧ ∀ c ∈ (s.tornStore ea n v).mem, c.1 < s.memSize := by
  induction n with
  | zero => exact ⟨h, hi⟩
  | succ n ih =>
    rw [State.tornStore_mem_succ]
    exact ⟨s.wf_tornByte ih.1 _ _, s.inside_tornByte ih.2 _ _⟩

end Sys2Proof.Machine
end

