-- ==== Sys2Proof/Laws/Exec.lean ====
section
/-! SUPPORT. Inversion: what an instruction and a step can do when they answer a next state. -/

namespace Sys2Proof.Machine

/-- The ways an instruction ends in a next state. -/
inductive Effect (i : Instr) (s : State) : State → Prop where
  | writesReg (rd : Reg) (v target : Word) : Effect i s ((s.writeReg rd v).setPc target)
  | writesPc (target : Word) : Effect i s (s.setPc target)
  | writesMem (ea : Word) (n : Nat) (v : Word) (parts : storeParts s i = some (ea, n, v))
      (inside : ea.toNat + n ≤ s.memSize) :
      Effect i s (({ s with mem := s.mem.writeBytes ea.toNat (toBytes n v) } : State).advance)
  | halts (why : (∃ rd rs1, i = .ebreak rd rs1) ∨ (∃ rd rs1, i = .ecall rd rs1) ∧ s.readReg callNumberReg = haltCall) :
      Effect i s s.setHalt
  | prints (why : ∃ rd rs1, i = .ecall rd rs1) (call : s.readReg callNumberReg = printCall) :
      Effect i s (s.emit (s.readReg printReg).toInt).advance

variable {s t : State} {i : Instr}

theorem effect_retire {rd : Reg} {v : Word} (h : retire rd v s = .next t) : Effect i s t := by
  cases h; exact .writesReg rd v _

theorem effect_branch {taken : Bool} {offset : BitVec 13} (h : branch taken offset s = .next t) : Effect i s t := by
  cases h; cases taken
  · exact .writesPc _
  · exact .writesPc _

theorem effect_jump {rd : Reg} {target : Word} (h : jump rd target s = .next t) : Effect i s t := by
  cases h; exact .writesReg rd _ target

theorem effect_load {rd : Reg} {ea : Word} {n : Nat} {extend : Word → Word} (h : load rd ea n extend s = .next t) :
    Effect i s t := by
  obtain ⟨v, rfl⟩ := load_next s h; exact .writesReg rd v _

theorem effect_store {ea : Word} {n : Nat} {v : Word} (parts : storeParts s i = some (ea, n, v))
    (h : store ea n v s = .next t) : Effect i s t := by
  obtain ⟨hb, rfl⟩ := store_next s h; exact .writesMem ea n v parts hb

theorem effect_ecall {rd rs1 : Reg} (h : execEcall rd rs1 s = .next t) : Effect (.ecall rd rs1) s t := by
  unfold execEcall at h; split at h
  · next hc => cases h; exact .halts (.inr ⟨⟨rd, rs1, rfl⟩, hc⟩)
  · split at h
    · next hc => cases h; exact .prints ⟨rd, rs1, rfl⟩ hc
    · cases h

/-- Everything an instruction can do when it answers a next state. -/
theorem exec_effect (h : exec i s = .next t) : Effect i s t := by
  cases i
  case beq | bne | blt | bge | bltu | bgeu => exact effect_branch h
  case jal | jalr => exact effect_jump h
  case lb | lh | lw | lbu | lhu => exact effect_load h
  case sb | sh | sw => exact effect_store rfl h
  case fence => cases h; exact .writesPc _
  case ebreak rd rs1 => cases h; exact .halts (.inl ⟨rd, rs1, rfl⟩)
  case ecall => exact effect_ecall h
  all_goals exact effect_retire h

/-- A step that is not halted and answers a next state ran one instruction and clamped x0. -/
theorem step_next (h : step s = .next t) :
    (s.halt = true ∧ t = s) ∨
      (s.halt = false ∧ ∃ i u, s.nextInstr = .ok i ∧ exec i s = .next u ∧ Effect i s u ∧ t = u.clampX0) := by
  unfold step at h; split at h
  · next hh => exact .inl ⟨hh, (Host.Outcome.next.inj h).symm⟩
  · next hh =>
    refine .inr ⟨Bool.eq_false_iff.2 hh, ?_⟩
    split at h
    · cases h
    · next i hi =>
      cases he : exec i s with
      | next u =>
        rw [he] at h
        exact ⟨i, u, hi, he, exec_effect he, (Host.Outcome.next.inj h).symm⟩
      | fault f => rw [he] at h; cases h
      | refused r => rw [he] at h; cases h

/-- The instruction of a step comes from a fetched word that dispatch found. -/
theorem nextInstr_ok : s.nextInstr = .ok i ↔
    ∃ w, s.fetch = .ok w ∧ ∃ op, dispatch s.extList w = .found op ∧ i = op.instr (decodeFields w) := by
  unfold State.nextInstr State.select
  cases hf : s.fetch with
  | error f => simp [Except.bind]
  | ok w => cases hd : dispatch s.extList w <;> simp [Except.bind, hd, eq_comm]

/-- A fetch inside memory gives the little-endian word at the pc. -/
theorem fetch_ok {w : Word} : s.fetch = .ok w ↔
    s.pc.toNat + 4 ≤ s.memSize ∧ w = ofBytes (s.mem.readBytes s.pc.toNat 4) := by
  unfold State.fetch State.memRead State.inBounds
  by_cases h : s.pc.toNat + 4 ≤ s.memSize <;> simp [h, eq_comm]

end Sys2Proof.Machine
end

