-- ==== Sys2Proof/Laws/PerInstr.lean ====
section
/-! SUPPORT. Statements for all instructions, one lemma a constructor. -/

namespace Sys2Proof.Laws.OwnKey

/-- The encoded word matches the key of the instruction's own behavior, and that behavior's operands
are read back from it (spec/30_encoding.md R90 to R92). -/
def Statement (i : Instr) : Prop :=
  i.op.key.matches (decodeFields (encode i)) = true ∧
    (i.wellFormed = true → i.op.instr (decodeFields (encode i)) = i)

theorem ofR {i : Instr} {funct7 : BitVec 7} {rs2 rs1 : Fin 32} {funct3 : BitVec 3} {rd : Reg} {opcode : BitVec 7}
    (he : encode i = encodeR funct7 rs2 rs1 funct3 rd opcode)
    (hk : i.op.key = { opcode := opcode, funct3 := some funct3, funct7 := some funct7 })
    (hi : ∀ f : DecodedFields, f.rd = rd → f.rs1 = rs1 → f.rs2 = rs2 → f.shamt = rs2 → i.op.instr f = i) :
    Statement i := by
  obtain ⟨ho, h3, h7, hrd, hr1, hr2, hsh⟩ := fields_encodeR funct7 rs2 rs1 funct3 rd opcode
  refine ⟨?_, fun _ => ?_⟩
  · rw [he, hk]; simp [Key.matches, Key.tests, ho, h3, h7]
  · rw [he]; exact hi _ hrd hr1 hr2 hsh

theorem ofI {i : Instr} {imm : BitVec 12} {rs1 : Reg} {funct3 : BitVec 3} {rd : Reg} {opcode : BitVec 7}
    {funct12 : Option (BitVec 12)} (he : encode i = encodeI imm rs1 funct3 rd opcode)
    (hk : i.op.key = { opcode := opcode, funct3 := some funct3, funct12 := funct12 })
    (h12 : funct12 = none ∨ funct12 = some imm)
    (hi : ∀ f : DecodedFields, f.rd = rd → f.rs1 = rs1 → f.immI = imm → i.op.instr f = i) :
    Statement i := by
  obtain ⟨ho, h3, hf, hrd, hr1, him⟩ := fields_encodeI imm rs1 funct3 rd opcode
  refine ⟨?_, fun _ => ?_⟩
  · rw [he, hk]; rcases h12 with rfl | rfl <;> simp [Key.matches, Key.tests, ho, h3, hf]
  · rw [he]; exact hi _ hrd hr1 him

theorem ofS {i : Instr} {imm : BitVec 12} {rs2 rs1 : Reg} {funct3 : BitVec 3} {opcode : BitVec 7}
    (he : encode i = encodeS imm rs2 rs1 funct3 opcode)
    (hk : i.op.key = { opcode := opcode, funct3 := some funct3 })
    (hi : ∀ f : DecodedFields, f.rs1 = rs1 → f.rs2 = rs2 → f.immS = imm → i.op.instr f = i) :
    Statement i := by
  obtain ⟨ho, h3, hr1, hr2, him⟩ := fields_encodeS imm rs2 rs1 funct3 opcode
  refine ⟨?_, fun _ => ?_⟩
  · rw [he, hk]; simp [Key.matches, Key.tests, ho, h3]
  · rw [he]; exact hi _ hr1 hr2 him

theorem ofB {i : Instr} {offset : BitVec 13} {rs2 rs1 : Reg} {funct3 : BitVec 3} {opcode : BitVec 7}
    (he : encode i = encodeB offset rs2 rs1 funct3 opcode)
    (hk : i.op.key = { opcode := opcode, funct3 := some funct3 }) (hw : i.wellFormed = evenOffset offset)
    (hi : ∀ f : DecodedFields, f.rs1 = rs1 → f.rs2 = rs2 → f.immB = offset → i.op.instr f = i) :
    Statement i := by
  obtain ⟨ho, h3, hr1, hr2, him⟩ := fields_encodeB offset rs2 rs1 funct3 opcode
  refine ⟨?_, fun h => ?_⟩
  · rw [he, hk]; simp [Key.matches, Key.tests, ho, h3]
  · rw [he]; exact hi _ hr1 hr2 (him (hw ▸ h))

theorem ofU {i : Instr} {imm20 : BitVec 20} {rd : Reg} {opcode : BitVec 7} (he : encode i = encodeU imm20 rd opcode)
    (hk : i.op.key = { opcode := opcode }) (hi : ∀ f : DecodedFields, f.rd = rd → f.immU = imm20 → i.op.instr f = i) :
    Statement i := by
  obtain ⟨ho, hrd, him⟩ := fields_encodeU imm20 rd opcode
  refine ⟨?_, fun _ => ?_⟩
  · rw [he, hk]; simp [Key.matches, Key.tests, ho]
  · rw [he]; exact hi _ hrd him

theorem ofJ {i : Instr} {offset : BitVec 21} {rd : Reg} {opcode : BitVec 7} (he : encode i = encodeJ offset rd opcode)
    (hk : i.op.key = { opcode := opcode }) (hw : i.wellFormed = evenOffset offset)
    (hi : ∀ f : DecodedFields, f.rd = rd → f.immJ = offset → i.op.instr f = i) :
    Statement i := by
  obtain ⟨ho, hrd, him⟩ := fields_encodeJ offset rd opcode
  refine ⟨?_, fun h => ?_⟩
  · rw [he, hk]; simp [Key.matches, Key.tests, ho]
  · rw [he]; exact hi _ hrd (him (hw ▸ h))

theorem lui (rd : Reg) (imm20 : BitVec 20) : Statement (.lui rd imm20) :=
  ofU rfl rfl fun f h1 h2 => by subst h1 h2; rfl

theorem auipc (rd : Reg) (imm20 : BitVec 20) : Statement (.auipc rd imm20) :=
  ofU rfl rfl fun f h1 h2 => by subst h1 h2; rfl

theorem jal (rd : Reg) (offset : BitVec 21) : Statement (.jal rd offset) :=
  ofJ rfl rfl rfl fun f h1 h2 => by subst h1 h2; rfl

theorem jalr (rd rs1 : Reg) (imm : BitVec 12) : Statement (.jalr rd rs1 imm) :=
  ofI rfl rfl (.inl rfl) fun f h1 h2 h3 => by subst h1 h2 h3; rfl

theorem beq (rs1 rs2 : Reg) (offset : BitVec 13) : Statement (.beq rs1 rs2 offset) :=
  ofB rfl rfl rfl fun f h1 h2 h3 => by subst h1 h2 h3; rfl

theorem bne (rs1 rs2 : Reg) (offset : BitVec 13) : Statement (.bne rs1 rs2 offset) :=
  ofB rfl rfl rfl fun f h1 h2 h3 => by subst h1 h2 h3; rfl

theorem blt (rs1 rs2 : Reg) (offset : BitVec 13) : Statement (.blt rs1 rs2 offset) :=
  ofB rfl rfl rfl fun f h1 h2 h3 => by subst h1 h2 h3; rfl

theorem bge (rs1 rs2 : Reg) (offset : BitVec 13) : Statement (.bge rs1 rs2 offset) :=
  ofB rfl rfl rfl fun f h1 h2 h3 => by subst h1 h2 h3; rfl

theorem bltu (rs1 rs2 : Reg) (offset : BitVec 13) : Statement (.bltu rs1 rs2 offset) :=
  ofB rfl rfl rfl fun f h1 h2 h3 => by subst h1 h2 h3; rfl

theorem bgeu (rs1 rs2 : Reg) (offset : BitVec 13) : Statement (.bgeu rs1 rs2 offset) :=
  ofB rfl rfl rfl fun f h1 h2 h3 => by subst h1 h2 h3; rfl

theorem lb (rd rs1 : Reg) (imm : BitVec 12) : Statement (.lb rd rs1 imm) :=
  ofI rfl rfl (.inl rfl) fun f h1 h2 h3 => by subst h1 h2 h3; rfl

theorem lh (rd rs1 : Reg) (imm : BitVec 12) : Statement (.lh rd rs1 imm) :=
  ofI rfl rfl (.inl rfl) fun f h1 h2 h3 => by subst h1 h2 h3; rfl

theorem lw (rd rs1 : Reg) (imm : BitVec 12) : Statement (.lw rd rs1 imm) :=
  ofI rfl rfl (.inl rfl) fun f h1 h2 h3 => by subst h1 h2 h3; rfl

theorem lbu (rd rs1 : Reg) (imm : BitVec 12) : Statement (.lbu rd rs1 imm) :=
  ofI rfl rfl (.inl rfl) fun f h1 h2 h3 => by subst h1 h2 h3; rfl

theorem lhu (rd rs1 : Reg) (imm : BitVec 12) : Statement (.lhu rd rs1 imm) :=
  ofI rfl rfl (.inl rfl) fun f h1 h2 h3 => by subst h1 h2 h3; rfl

theorem sb (rs1 rs2 : Reg) (imm : BitVec 12) : Statement (.sb rs1 rs2 imm) :=
  ofS rfl rfl fun f h1 h2 h3 => by subst h1 h2 h3; rfl

theorem sh (rs1 rs2 : Reg) (imm : BitVec 12) : Statement (.sh rs1 rs2 imm) :=
  ofS rfl rfl fun f h1 h2 h3 => by subst h1 h2 h3; rfl

theorem sw (rs1 rs2 : Reg) (imm : BitVec 12) : Statement (.sw rs1 rs2 imm) :=
  ofS rfl rfl fun f h1 h2 h3 => by subst h1 h2 h3; rfl

theorem addi (rd rs1 : Reg) (imm : BitVec 12) : Statement (.addi rd rs1 imm) :=
  ofI rfl rfl (.inl rfl) fun f h1 h2 h3 => by subst h1 h2 h3; rfl

theorem slti (rd rs1 : Reg) (imm : BitVec 12) : Statement (.slti rd rs1 imm) :=
  ofI rfl rfl (.inl rfl) fun f h1 h2 h3 => by subst h1 h2 h3; rfl

theorem sltiu (rd rs1 : Reg) (imm : BitVec 12) : Statement (.sltiu rd rs1 imm) :=
  ofI rfl rfl (.inl rfl) fun f h1 h2 h3 => by subst h1 h2 h3; rfl

theorem xori (rd rs1 : Reg) (imm : BitVec 12) : Statement (.xori rd rs1 imm) :=
  ofI rfl rfl (.inl rfl) fun f h1 h2 h3 => by subst h1 h2 h3; rfl

theorem ori (rd rs1 : Reg) (imm : BitVec 12) : Statement (.ori rd rs1 imm) :=
  ofI rfl rfl (.inl rfl) fun f h1 h2 h3 => by subst h1 h2 h3; rfl

theorem andi (rd rs1 : Reg) (imm : BitVec 12) : Statement (.andi rd rs1 imm) :=
  ofI rfl rfl (.inl rfl) fun f h1 h2 h3 => by subst h1 h2 h3; rfl

theorem slli (rd rs1 : Reg) (shamt : Fin 32) : Statement (.slli rd rs1 shamt) :=
  ofR rfl rfl fun f h1 h2 _ h4 => by subst h1 h2 h4; rfl

theorem srli (rd rs1 : Reg) (shamt : Fin 32) : Statement (.srli rd rs1 shamt) :=
  ofR rfl rfl fun f h1 h2 _ h4 => by subst h1 h2 h4; rfl

theorem srai (rd rs1 : Reg) (shamt : Fin 32) : Statement (.srai rd rs1 shamt) :=
  ofR rfl rfl fun f h1 h2 _ h4 => by subst h1 h2 h4; rfl

theorem add (rd rs1 rs2 : Reg) : Statement (.add rd rs1 rs2) :=
  ofR rfl rfl fun f h1 h2 h3 _ => by subst h1 h2 h3; rfl

theorem sub (rd rs1 rs2 : Reg) : Statement (.sub rd rs1 rs2) :=
  ofR rfl rfl fun f h1 h2 h3 _ => by subst h1 h2 h3; rfl

theorem sll (rd rs1 rs2 : Reg) : Statement (.sll rd rs1 rs2) :=
  ofR rfl rfl fun f h1 h2 h3 _ => by subst h1 h2 h3; rfl

theorem slt (rd rs1 rs2 : Reg) : Statement (.slt rd rs1 rs2) :=
  ofR rfl rfl fun f h1 h2 h3 _ => by subst h1 h2 h3; rfl

theorem sltu (rd rs1 rs2 : Reg) : Statement (.sltu rd rs1 rs2) :=
  ofR rfl rfl fun f h1 h2 h3 _ => by subst h1 h2 h3; rfl

theorem xor (rd rs1 rs2 : Reg) : Statement (.xor rd rs1 rs2) :=
  ofR rfl rfl fun f h1 h2 h3 _ => by subst h1 h2 h3; rfl

theorem srl (rd rs1 rs2 : Reg) : Statement (.srl rd rs1 rs2) :=
  ofR rfl rfl fun f h1 h2 h3 _ => by subst h1 h2 h3; rfl

theorem sra (rd rs1 rs2 : Reg) : Statement (.sra rd rs1 rs2) :=
  ofR rfl rfl fun f h1 h2 h3 _ => by subst h1 h2 h3; rfl

theorem or (rd rs1 rs2 : Reg) : Statement (.or rd rs1 rs2) :=
  ofR rfl rfl fun f h1 h2 h3 _ => by subst h1 h2 h3; rfl

theorem and (rd rs1 rs2 : Reg) : Statement (.and rd rs1 rs2) :=
  ofR rfl rfl fun f h1 h2 h3 _ => by subst h1 h2 h3; rfl

theorem fence (rd rs1 : Reg) (imm : BitVec 12) : Statement (.fence rd rs1 imm) :=
  ofI rfl rfl (.inl rfl) fun f h1 h2 h3 => by subst h1 h2 h3; rfl

theorem ecall (rd rs1 : Reg) : Statement (.ecall rd rs1) :=
  ofI rfl rfl (.inr rfl) fun f h1 h2 _ => by subst h1 h2; rfl

theorem ebreak (rd rs1 : Reg) : Statement (.ebreak rd rs1) :=
  ofI rfl rfl (.inr rfl) fun f h1 h2 _ => by subst h1 h2; rfl

theorem mul (rd rs1 rs2 : Reg) : Statement (.mul rd rs1 rs2) :=
  ofR rfl rfl fun f h1 h2 h3 _ => by subst h1 h2 h3; rfl

theorem mulh (rd rs1 rs2 : Reg) : Statement (.mulh rd rs1 rs2) :=
  ofR rfl rfl fun f h1 h2 h3 _ => by subst h1 h2 h3; rfl

theorem mulhsu (rd rs1 rs2 : Reg) : Statement (.mulhsu rd rs1 rs2) :=
  ofR rfl rfl fun f h1 h2 h3 _ => by subst h1 h2 h3; rfl

theorem mulhu (rd rs1 rs2 : Reg) : Statement (.mulhu rd rs1 rs2) :=
  ofR rfl rfl fun f h1 h2 h3 _ => by subst h1 h2 h3; rfl

theorem div (rd rs1 rs2 : Reg) : Statement (.div rd rs1 rs2) :=
  ofR rfl rfl fun f h1 h2 h3 _ => by subst h1 h2 h3; rfl

theorem divu (rd rs1 rs2 : Reg) : Statement (.divu rd rs1 rs2) :=
  ofR rfl rfl fun f h1 h2 h3 _ => by subst h1 h2 h3; rfl

theorem rem (rd rs1 rs2 : Reg) : Statement (.rem rd rs1 rs2) :=
  ofR rfl rfl fun f h1 h2 h3 _ => by subst h1 h2 h3; rfl

theorem remu (rd rs1 rs2 : Reg) : Statement (.remu rd rs1 rs2) :=
  ofR rfl rfl fun f h1 h2 h3 _ => by subst h1 h2 h3; rfl

end Sys2Proof.Laws.OwnKey
end

