-- ==== Sys2Proof/Tests/Slice0.lean ====
section
/-! SUPPORT. Tests with expected results from spec/95_test_vectors.md and the examples of files 40 to 46,
and a witness for every statement that has hypotheses. -/

namespace Sys2Proof.Tests

open Sys2Proof.Machine

/-- The set-up of 95_test_vectors.md: MEM_SIZE 0x10000, every extension, a word at pc 0x100, some registers. -/
def at100 (w : Word) (regs : List (Reg × Word)) : State :=
  regs.foldl (fun s p => s.writeReg p.1 p.2) (State.placeAtPc { State.reset with pc := 0x100#32 } w)

/-- The same with the data bytes of section 2.4. -/
def withData (w : Word) (regs : List (Reg × Word)) : State :=
  let s := at100 w regs
  { s with mem := s.mem.writeBytes 0x1000 [0xEF#8, 0xBE#8, 0xAD#8, 0xDE#8, 0x80#8, 0x7F#8, 0x01#8, 0xFF#8] }

/-- The step answers a next state that passes the test. -/
def after (s : State) (p : State → Bool) : Bool :=
  match step s with
  | .next t => p t
  | .fault _ | .refused _ => false

/-- The step ends in this error. -/
def stops (s : State) (f : Fault) : Bool :=
  match step s with
  | .fault g => g == f
  | .next _ | .refused _ => false

theorem after_next {s : State} {p : State → Bool} (h : after s p = true) : ∃ t, step s = .next t ∧ p t = true := by
  unfold after at h; split at h
  · next t ht => exact ⟨t, ht, h⟩
  · cases h
  · cases h

/-! ### WellFormed refuses an odd offset (30_encoding.md R86, R88) -/

theorem test_odd_offset_refused :
    [Instr.jal 1 3, .beq 1 2 1, .bne 1 2 (-1), .blt 1 2 5, .bge 1 2 7, .bltu 1 2 4095, .bgeu 1 2 9].map
      Instr.wellFormed = List.replicate 7 false := by
  decide

theorem test_even_offset_accepted :
    [Instr.jal 1 1048574, .beq 1 2 0, .bne 1 2 (-8), .blt 1 2 4094, .bge 1 2 2, .bltu 1 2 (-4096), .bgeu 1 2 16].map
      Instr.wellFormed = List.replicate 7 true := by
  decide

/-! ### The host's entries -/

theorem test_decodeTableWord : decodeTableWord 32 0x00500293 = some (.addi 5 0 5) := by decide

theorem test_withFetchWord :
    after (State.reset.withFetchWord 32 0x00500293) (fun t => t.readReg 5 == 5#32 && t.pc == 4#32) := by decide

/-! ### Arithmetic, logic, shift, compare (95_test_vectors.md section 2.1) -/

theorem test_add :
    decode 0b0000000_00010_00001_000_00011_0110011#32 = some (.add 3 1 2) ∧
    after (at100 0x002081B3#32 [(1, 0x7FFFFFFF#32), (2, 0x00000001#32)]) fun t =>
      t.readReg 3 == 0x80000000#32 && t.pc == 0x00000104#32 := by
  decide

theorem test_addi :
    decode 0b100000000000_00001_000_00011_0010011#32 = some (.addi 3 1 (-2048)) ∧
    after (at100 0x80008193#32 [(1, 0x00000000#32)]) fun t =>
      t.readReg 3 == 0xFFFFF800#32 && t.pc == 0x00000104#32 := by
  decide

theorem test_sub :
    decode 0b0100000_00010_00001_000_00011_0110011#32 = some (.sub 3 1 2) ∧
    after (at100 0x402081B3#32 [(1, 0x00000000#32), (2, 0x00000001#32)]) fun t =>
      t.readReg 3 == 0xFFFFFFFF#32 && t.pc == 0x00000104#32 := by
  decide

theorem test_xor :
    decode 0b0000000_00010_00001_100_00011_0110011#32 = some (.xor 3 1 2) ∧
    after (at100 0x0020C1B3#32 [(1, 0xF0F0F0F0#32), (2, 0xFF00FF00#32)]) fun t =>
      t.readReg 3 == 0x0FF00FF0#32 && t.pc == 0x00000104#32 := by
  decide

theorem test_xori :
    decode 0b111111111111_00001_100_00011_0010011#32 = some (.xori 3 1 (-1)) ∧
    after (at100 0xFFF0C193#32 [(1, 0x12345678#32)]) fun t =>
      t.readReg 3 == 0xEDCBA987#32 && t.pc == 0x00000104#32 := by
  decide

theorem test_or :
    decode 0b0000000_00010_00001_110_00011_0110011#32 = some (.or 3 1 2) ∧
    after (at100 0x0020E1B3#32 [(1, 0xF0F0F0F0#32), (2, 0x0F0F0F0F#32)]) fun t =>
      t.readReg 3 == 0xFFFFFFFF#32 && t.pc == 0x00000104#32 := by
  decide

theorem test_ori :
    decode 0b100000000000_00001_110_00011_0010011#32 = some (.ori 3 1 (-2048)) ∧
    after (at100 0x8000E193#32 [(1, 0x00000001#32)]) fun t =>
      t.readReg 3 == 0xFFFFF801#32 && t.pc == 0x00000104#32 := by
  decide

theorem test_and :
    decode 0b0000000_00010_00001_111_00011_0110011#32 = some (.and 3 1 2) ∧
    after (at100 0x0020F1B3#32 [(1, 0xF0F0F0F0#32), (2, 0xFF00FF00#32)]) fun t =>
      t.readReg 3 == 0xF000F000#32 && t.pc == 0x00000104#32 := by
  decide

theorem test_andi :
    decode 0b111111110000_00001_111_00011_0010011#32 = some (.andi 3 1 (-16)) ∧
    after (at100 0xFF00F193#32 [(1, 0x12345678#32)]) fun t =>
      t.readReg 3 == 0x12345670#32 && t.pc == 0x00000104#32 := by
  decide

theorem test_sll :
    decode 0b0000000_00010_00001_001_00011_0110011#32 = some (.sll 3 1 2) ∧
    after (at100 0x002091B3#32 [(1, 0x00000001#32), (2, 0xFFFFFFE1#32)]) fun t =>
      t.readReg 3 == 0x00000002#32 && t.pc == 0x00000104#32 := by
  decide

theorem test_srl :
    decode 0b0000000_00010_00001_101_00011_0110011#32 = some (.srl 3 1 2) ∧
    after (at100 0x0020D1B3#32 [(1, 0x80000000#32), (2, 0x0000001F#32)]) fun t =>
      t.readReg 3 == 0x00000001#32 && t.pc == 0x00000104#32 := by
  decide

theorem test_sra :
    decode 0b0100000_00010_00001_101_00011_0110011#32 = some (.sra 3 1 2) ∧
    after (at100 0x4020D1B3#32 [(1, 0x80000000#32), (2, 0x0000001F#32)]) fun t =>
      t.readReg 3 == 0xFFFFFFFF#32 && t.pc == 0x00000104#32 := by
  decide

theorem test_slli :
    decode 0b0000000_11111_00001_001_00011_0010011#32 = some (.slli 3 1 31) ∧
    after (at100 0x01F09193#32 [(1, 0x00000003#32)]) fun t =>
      t.readReg 3 == 0x80000000#32 && t.pc == 0x00000104#32 := by
  decide

theorem test_srli :
    decode 0b0000000_00100_00001_101_00011_0010011#32 = some (.srli 3 1 4) ∧
    after (at100 0x0040D193#32 [(1, 0xF0000000#32)]) fun t =>
      t.readReg 3 == 0x0F000000#32 && t.pc == 0x00000104#32 := by
  decide

theorem test_srai :
    decode 0b0100000_00100_00001_101_00011_0010011#32 = some (.srai 3 1 4) ∧
    after (at100 0x4040D193#32 [(1, 0xF0000000#32)]) fun t =>
      t.readReg 3 == 0xFF000000#32 && t.pc == 0x00000104#32 := by
  decide

theorem test_slt :
    decode 0b0000000_00010_00001_010_00011_0110011#32 = some (.slt 3 1 2) ∧
    after (at100 0x0020A1B3#32 [(1, 0xFFFFFFFF#32), (2, 0x00000001#32)]) fun t =>
      t.readReg 3 == 0x00000001#32 && t.pc == 0x00000104#32 := by
  decide

theorem test_slti :
    decode 0b111111111111_00001_010_00011_0010011#32 = some (.slti 3 1 (-1)) ∧
    after (at100 0xFFF0A193#32 [(1, 0x80000000#32)]) fun t =>
      t.readReg 3 == 0x00000001#32 && t.pc == 0x00000104#32 := by
  decide

theorem test_sltu :
    decode 0b0000000_00010_00001_011_00011_0110011#32 = some (.sltu 3 1 2) ∧
    after (at100 0x0020B1B3#32 [(1, 0xFFFFFFFF#32), (2, 0x00000001#32)]) fun t =>
      t.readReg 3 == 0x00000000#32 && t.pc == 0x00000104#32 := by
  decide

theorem test_sltiu :
    decode 0b111111111111_00001_011_00011_0010011#32 = some (.sltiu 3 1 (-1)) ∧
    after (at100 0xFFF0B193#32 [(1, 0xFFFFFFFE#32)]) fun t =>
      t.readReg 3 == 0x00000001#32 && t.pc == 0x00000104#32 := by
  decide

/-! ### Control transfer (section 2.2) -/

theorem test_beq :
    decode 0b0_111111_00000_00000_000_1111_1_1100011#32 = some (.beq 0 0 4094) ∧
    after (at100 0x7E000FE3#32 []) fun t =>
      t.pc == 0x000010FE#32 := by
  decide

theorem test_bne :
    decode 0b1_111111_00010_00001_001_1100_1_1100011#32 = some (.bne 1 2 (-8)) ∧
    after (at100 0xFE209CE3#32 [(1, 0x00000005#32), (2, 0x00000006#32)]) fun t =>
      t.pc == 0x000000F8#32 := by
  decide

theorem test_blt :
    decode 0b0_000000_00010_00001_100_1000_0_1100011#32 = some (.blt 1 2 16) ∧
    after (at100 0x0020C863#32 [(1, 0xFFFFFFFF#32), (2, 0x00000001#32)]) fun t =>
      t.pc == 0x00000110#32 := by
  decide

theorem test_bge :
    decode 0b0_000000_00010_00001_101_1000_0_1100011#32 = some (.bge 1 2 16) ∧
    after (at100 0x0020D863#32 [(1, 0x00000005#32), (2, 0x00000005#32)]) fun t =>
      t.pc == 0x00000110#32 := by
  decide

theorem test_bltu :
    decode 0b0_000000_00010_00001_110_1000_0_1100011#32 = some (.bltu 1 2 16) ∧
    after (at100 0x0020E863#32 [(1, 0xFFFFFFFF#32), (2, 0x00000001#32)]) fun t =>
      t.pc == 0x00000104#32 := by
  decide

theorem test_bgeu :
    decode 0b0_000000_00010_00001_111_1000_0_1100011#32 = some (.bgeu 1 2 16) ∧
    after (at100 0x0020F863#32 [(1, 0x80000000#32), (2, 0x00000000#32)]) fun t =>
      t.pc == 0x00000110#32 := by
  decide

theorem test_jal :
    decode 0b0_1111111111_1_11111111_00001_1101111#32 = some (.jal 1 1048574) ∧
    after (at100 0x7FFFF0EF#32 []) fun t =>
      t.readReg 1 == 0x00000104#32 && t.pc == 0x001000FE#32 := by
  decide

theorem test_jalr :
    decode 0b000000000100_00001_000_00001_1100111#32 = some (.jalr 1 1 4) ∧
    after (at100 0x004080E7#32 [(1, 0x00000201#32)]) fun t =>
      t.readReg 1 == 0x00000104#32 && t.pc == 0x00000204#32 := by
  decide

/-! ### Upper immediates (section 2.3) -/

theorem test_lui :
    decode 0b10000000000000000000_00011_0110111#32 = some (.lui 3 0x80000) ∧
    after (at100 0x800001B7#32 []) fun t =>
      t.readReg 3 == 0x80000000#32 && t.pc == 0x00000104#32 := by
  decide

theorem test_auipc :
    decode 0b11111111111111111111_00011_0010111#32 = some (.auipc 3 0xFFFFF) ∧
    after (at100 0xFFFFF197#32 []) fun t =>
      t.readReg 3 == 0xFFFFF100#32 && t.pc == 0x00000104#32 := by
  decide

/-! ### Loads and stores, with the data of section 2.4 at 0x1000 -/

theorem test_lb :
    decode 0b000000000000_00001_000_00011_0000011#32 = some (.lb 3 1 0) ∧
    after (withData 0x00008183#32 [(1, 0x00001000#32)]) fun t =>
      t.readReg 3 == 0xFFFFFFEF#32 && t.pc == 0x00000104#32 := by
  decide

theorem test_lbu :
    decode 0b000000000000_00001_100_00011_0000011#32 = some (.lbu 3 1 0) ∧
    after (withData 0x0000C183#32 [(1, 0x00001000#32)]) fun t =>
      t.readReg 3 == 0x000000EF#32 && t.pc == 0x00000104#32 := by
  decide

theorem test_lh :
    decode 0b000000000010_00001_001_00011_0000011#32 = some (.lh 3 1 2) ∧
    after (withData 0x00209183#32 [(1, 0x00001000#32)]) fun t =>
      t.readReg 3 == 0xFFFFDEAD#32 && t.pc == 0x00000104#32 := by
  decide

theorem test_lhu :
    decode 0b000000000010_00001_101_00011_0000011#32 = some (.lhu 3 1 2) ∧
    after (withData 0x0020D183#32 [(1, 0x00001000#32)]) fun t =>
      t.readReg 3 == 0x0000DEAD#32 && t.pc == 0x00000104#32 := by
  decide

theorem test_lw :
    decode 0b000000000100_00001_010_00001_0000011#32 = some (.lw 1 1 4) ∧
    after (withData 0x0040A083#32 [(1, 0x00001000#32)]) fun t =>
      t.readReg 1 == 0xFF017F80#32 && t.pc == 0x00000104#32 := by
  decide

theorem test_sb :
    decode 0b1111111_00010_00001_000_11111_0100011#32 = some (.sb 1 2 (-1)) ∧
    after (withData 0xFE208FA3#32 [(1, 0x00001001#32), (2, 0x12345678#32)]) fun t =>
      t.mem.readBytes 0x1000 5 == [0x78#8, 0xBE#8, 0xAD#8, 0xDE#8, 0x80#8] && t.pc == 0x00000104#32 := by
  decide

theorem test_sh :
    decode 0b0000000_00010_00001_001_00010_0100011#32 = some (.sh 1 2 2) ∧
    after (withData 0x00209123#32 [(1, 0x00001000#32), (2, 0x12345678#32)]) fun t =>
      t.mem.readBytes 0x1000 5 == [0xEF#8, 0xBE#8, 0x78#8, 0x56#8, 0x80#8] && t.pc == 0x00000104#32 := by
  decide

theorem test_sw :
    decode 0b0000000_00010_00001_010_00001_0100011#32 = some (.sw 1 2 1) ∧
    after (withData 0x0020A0A3#32 [(1, 0x00001000#32), (2, 0xA1B2C3D4#32)]) fun t =>
      t.mem.readBytes 0x1000 5 == [0xEF#8, 0xD4#8, 0xC3#8, 0xB2#8, 0xA1#8] && t.pc == 0x00000104#32 := by
  decide

/-! ### fence, ebreak, ecall (sections 2.5 and 2.7) -/

theorem test_fence :
    decode 0b100000110011_00000_000_00000_0001111#32 = some (.fence 0 0 0x833) ∧
    after (at100 0x8330000F#32 []) fun t =>
      t.pc == 0x00000104#32 := by
  decide

theorem test_ebreak :
    decode 0b000000000001_00000_000_00000_1110011#32 = some (.ebreak 0 0) ∧
    after (at100 0x00100073#32 []) fun t =>
      t.halt && t.pc == 0x00000100#32 := by
  decide

theorem test_ecall :
    decode 0b000000000000_00000_000_00000_1110011#32 = some (.ecall 0 0) ∧
    after (at100 0x00000073#32 [(17, 0x00000001#32), (10, 0xFFFFFFFB#32)]) fun t =>
      t.sink == [-5] && !t.halt && t.pc == 0x00000104#32 := by
  decide

/-! ### Multiply and divide (section 2.6) -/

theorem test_mul :
    decode 0b0000001_00010_00001_000_00011_0110011#32 = some (.mul 3 1 2) ∧
    after (at100 0x022081B3#32 [(1, 0xFFFFFFFF#32), (2, 0x00000002#32)]) fun t =>
      t.readReg 3 == 0xFFFFFFFE#32 && t.pc == 0x00000104#32 := by
  decide

theorem test_mulh :
    decode 0b0000001_00010_00001_001_00011_0110011#32 = some (.mulh 3 1 2) ∧
    after (at100 0x022091B3#32 [(1, 0xFFFFFFFF#32), (2, 0x00000002#32)]) fun t =>
      t.readReg 3 == 0xFFFFFFFF#32 && t.pc == 0x00000104#32 := by
  decide

theorem test_mulhsu :
    decode 0b0000001_00010_00001_010_00011_0110011#32 = some (.mulhsu 3 1 2) ∧
    after (at100 0x0220A1B3#32 [(1, 0x80000000#32), (2, 0x80000000#32)]) fun t =>
      t.readReg 3 == 0xC0000000#32 && t.pc == 0x00000104#32 := by
  decide

theorem test_mulhu :
    decode 0b0000001_00010_00001_011_00011_0110011#32 = some (.mulhu 3 1 2) ∧
    after (at100 0x0220B1B3#32 [(1, 0xFFFFFFFF#32), (2, 0xFFFFFFFF#32)]) fun t =>
      t.readReg 3 == 0xFFFFFFFE#32 && t.pc == 0x00000104#32 := by
  decide

theorem test_div :
    decode 0b0000001_00010_00001_100_00011_0110011#32 = some (.div 3 1 2) ∧
    after (at100 0x0220C1B3#32 [(1, 0xFFFFFFF9#32), (2, 0x00000002#32)]) fun t =>
      t.readReg 3 == 0xFFFFFFFD#32 && t.pc == 0x00000104#32 := by
  decide

theorem test_divu :
    decode 0b0000001_00010_00001_101_00011_0110011#32 = some (.divu 3 1 2) ∧
    after (at100 0x0220D1B3#32 [(1, 0xFFFFFFF9#32), (2, 0x00000002#32)]) fun t =>
      t.readReg 3 == 0x7FFFFFFC#32 && t.pc == 0x00000104#32 := by
  decide

theorem test_rem :
    decode 0b0000001_00010_00001_110_00011_0110011#32 = some (.rem 3 1 2) ∧
    after (at100 0x0220E1B3#32 [(1, 0xFFFFFFF9#32), (2, 0x00000002#32)]) fun t =>
      t.readReg 3 == 0xFFFFFFFF#32 && t.pc == 0x00000104#32 := by
  decide

theorem test_remu :
    decode 0b0000001_00010_00001_111_00011_0110011#32 = some (.remu 3 1 2) ∧
    after (at100 0x0220F1B3#32 [(1, 0xFFFFFFF9#32), (2, 0xFFFFFFFE#32)]) fun t =>
      t.readReg 3 == 0xFFFFFFF9#32 && t.pc == 0x00000104#32 := by
  decide

/-! ### Corner cases -/

/-- beq not taken: pc + 4. -/
theorem test_beq_not_taken : after (at100 0x00208463#32 [(1, 5#32), (2, 6#32)]) (fun t => t.pc == 0x104#32) := by decide

/-- A branch target wraps below 0 (decision D3). -/
theorem test_beq_wraps :
    after (State.placeAtPc State.reset 0xFE000CE3#32) (fun t => t.pc == 0xFFFFFFF8#32) := by decide

/-- A misaligned word load does not fault (decision D5). -/
theorem test_lw_misaligned :
    after (withData 0x0010A183#32 [(1, 0x1000#32)]) (fun t => t.readReg 3 == 0x80DEADBE#32) := by decide

theorem test_lw_crosses_end : stops (at100 0x0000A183#32 [(1, 0xFFFD#32)]) (.bounds .load 0xFFFD 4) := by decide

/-- The address wraps to 0xFFFFFFFF (decision D3). -/
theorem test_lb_below_zero : stops (at100 0xFFF08183#32 []) (.bounds .load 0xFFFFFFFF 1) := by decide

theorem test_sb_out_of_bounds :
    stops (at100 0x00208023#32 [(1, 0x10000#32), (2, 0x55#32)]) (.bounds .store 0x10000 1) := by decide

/-- A store of zeros keeps memory canonical: the word at the pc goes back to unlisted bytes. -/
theorem test_sw_over_own_word : after (at100 0x10002023#32 []) (fun t => t.mem == [] && t.pc == 0x104#32) := by decide

theorem test_div_overflow :
    after (at100 0x0220C1B3#32 [(1, 0x80000000#32), (2, 0xFFFFFFFF#32)]) (fun t => t.readReg 3 == 0x80000000#32) := by
  decide

theorem test_div_by_zero : after (at100 0x0220C1B3#32 [(1, 17#32)]) (fun t => t.readReg 3 == 0xFFFFFFFF#32) := by decide

theorem test_divu_by_zero : after (at100 0x0220D1B3#32 [(1, 17#32)]) (fun t => t.readReg 3 == 0xFFFFFFFF#32) := by decide

theorem test_rem_by_zero : after (at100 0x0220E1B3#32 [(1, 17#32)]) (fun t => t.readReg 3 == 17#32) := by decide

theorem test_remu_by_zero : after (at100 0x0220F1B3#32 [(1, 17#32)]) (fun t => t.readReg 3 == 17#32) := by decide

theorem test_ecall_halts : after (at100 0x00000073#32 [(17, 10#32)]) (fun t => t.halt && t.pc == 0x100#32) := by decide

theorem test_ecall_unknown_call :
    stops (at100 0x00000073#32 [(17, 0x8000000A#32)]) (.unimplementedSyscall 0x8000000A#32 0x100#32 0x73#32) := by decide

theorem test_mul_without_muldiv :
    stops { at100 0x022081B3#32 [] with extList := [.base, .envcall] } (.unimplementedInstruction 0x022081B3#32 0x100#32) := by
  decide

theorem test_base_twice_conflicts :
    stops { at100 0x00100093#32 [] with extList := [.base, .base, .envcall] } (.dispatchConflict 0x00100093#32 0x100#32) := by
  decide

/-- Section 3: an image that does not fit. -/
theorem test_loadImage_too_long :
    ({ State.reset with memSize := 16 } : State).loadImage 12#32 [0#8, 0#8, 0#8, 0#8, 0#8] = .error (.bounds .image 12 5) :=
  rfl

/-- The words of nop, ret and fence (30_encoding.md R98, R101, 44_misc.md R201). -/
theorem test_pseudo_words :
    [Pseudo.nop, .ret, .fence].map (fun p => p.expand.map encode) =
      [[0x00000013#32], [0x00008067#32], [0x0FF0000F#32]] := by decide

/-- A constant whose low part is negative borrows from the high part. -/
theorem test_li_split : (Pseudo.li 5 0x12345FFF#32).expand = [.lui 5 0x12346, .addi 5 5 (-1)] := by decide

/-- The catalog names of 30_encoding.md R92, row by row. -/
theorem test_mnemonics :
    allOps.map Op.mnemonic =
      ["lui", "auipc", "jal", "jalr", "beq", "bne", "blt", "bge", "bltu", "bgeu", "lb", "lh", "lw", "lbu", "lhu"] ++
      ["sb", "sh", "sw", "addi", "slti", "sltiu", "xori", "ori", "andi", "slli", "srli", "srai", "add", "sub"] ++
      ["sll", "slt", "sltu", "xor", "srl", "sra", "or", "and", "fence", "ebreak", "mul", "mulh", "mulhsu"] ++
      ["mulhu", "div", "divu", "rem", "remu", "ecall"] := by decide

theorem test_register_names :
    [registerNamed "a7", registerNamed "x10", registerNamed "fp", registerNamed "q0"] = [some 17, some 10, some 8, none] := by
  decide

/-- Section 3: both arguments bad, so the size is reported; and R280's size that is no integer. -/
theorem test_construct_bad_size :
    construct (.int 0) [.ext .base, .malformed] = .error (.configMemSize (.int 0)) ∧
    construct (.notInteger "4096.5") [.malformed] = .error (.configMemSize (.notInteger "4096.5")) :=
  ⟨rfl, rfl⟩

/-! ### Witnesses: states and operands that meet the hypotheses of the statements -/

/-- `add x3, x1, x2` at pc 0x100. -/
def addAt : State := at100 0x002081B3#32 [(1, 5#32), (2, 6#32)]

/-- `ebreak` at pc 0x100. -/
def ebreakAt : State := at100 0x00100073#32 []

/-- `ecall` at pc 0x100. -/
def ecallAt (call : Word) : State := at100 0x00000073#32 [(17, call), (10, 0xFFFFFFFB#32)]

/-- `lw x3, 0(x1)` at pc 0x100. -/
def lwAt (a : Word) : State := at100 0x0000A183#32 [(1, a)]

/-- `sw x2, 0(x1)` at pc 0x100. -/
def swAt (a : Word) : State := at100 0x0020A023#32 [(1, a), (2, 0x11223344#32), (4, a + 2#32)]

/-- `sw x2, 4(x1)` at pc 0x100, with the address of the next instruction. -/
def swAhead : State := at100 0x0020A223#32 [(1, 0x100#32), (2, 0x00100073#32)]

/-- The address that the statements about loads and stores compute, for base x1 and displacement 0. -/
def eaOf (a : Word) : Nat := (wrap32 ((((lwAt a).readReg 1).toNat : Int) + (0#12).toInt)).toNat

theorem addAt_inv : addAt.Inv := ⟨by decide, by decide, by decide, by decide, by decide⟩

theorem witness_ZeroRegisterStaysZero :
    (at100 0x00500013#32 []).halt = false ∧ (∃ t, step (at100 0x00500013#32 []) = .next t) ∧
    ∃ s, construct (.int 1) [] = .ok s :=
  ⟨rfl, ⟨_, rfl⟩, _, rfl⟩

theorem witness_ExtensionFunctions :
    (0 < 1 ∧ 1 ≤ 32 ∧ (1#1).getLsbD (1 - 1) = true) ∧ (0 < 12 ∧ 12 ≤ 32 ∧ (0x7FF#12).getLsbD (12 - 1) = false) ∧
    (0 < 32 ∧ 32 ≤ 32 ∧ (0x80000000#32).getLsbD (32 - 1) = true) := by decide

/-- The last byte, halfword and word in bounds, and the first ones out of bounds. -/
theorem witness_LoadResults :
    (eaOf 0xFFFF#32 + 1 ≤ 0x10000 ∧ ¬eaOf 0x10000#32 + 1 ≤ 0x10000) ∧
    (eaOf 0xFFFE#32 + 2 ≤ 0x10000 ∧ ¬eaOf 0xFFFF#32 + 2 ≤ 0x10000) ∧
    (eaOf 0xFFFC#32 + 4 ≤ 0x10000 ∧ ¬eaOf 0xFFFD#32 + 4 ≤ 0x10000) ∧
    (lwAt 0xFFFD#32).memSize = 0x10000 ∧ (lwAt 0xFFFD#32).halt = false := by decide

/-- The step that executes the failing load (the second part of FailsUnchanged), width by width. -/
theorem witness_LoadResults_step :
    (lwAt 0xFFFD#32).nextInstr = .ok (.lw 3 1 0) ∧
    (at100 0x00009183#32 [(1, 0xFFFF#32)]).nextInstr = .ok (.lh 3 1 0) ∧
    (at100 0x0000D183#32 [(1, 0xFFFF#32)]).nextInstr = .ok (.lhu 3 1 0) ∧
    (at100 0x00008183#32 [(1, 0x10000#32)]).nextInstr = .ok (.lb 3 1 0) ∧
    (at100 0x0000C183#32 [(1, 0x10000#32)]).nextInstr = .ok (.lbu 3 1 0) := by decide

/-- The addresses are those of witness_LoadResults; here the steps that execute the failing stores. -/
theorem witness_StoreResults :
    (swAt 0xFFFD#32).readReg 1 = (lwAt 0xFFFD#32).readReg 1 ∧
    (swAt 0xFFFD#32).memSize = 0x10000 ∧ (swAt 0xFFFD#32).halt = false ∧
    (swAt 0xFFFD#32).nextInstr = .ok (.sw 1 2 0) ∧
    (at100 0x00209023#32 [(1, 0xFFFF#32)]).nextInstr = .ok (.sh 1 2 0) ∧
    (at100 0x00208023#32 [(1, 0x10000#32)]).nextInstr = .ok (.sb 1 2 0) := by decide

/-- A word load of the same word, a byte load of its last byte, a halfword load of its upper half. -/
theorem witness_StoreThenLoad :
    ∃ t, exec (.sw 1 2 0) (swAt 0x1000#32) = .next t ∧
      t.effectiveAddress 1 0 = (swAt 0x1000#32).effectiveAddress 1 0 ∧
      (t.effectiveAddress 1 3).toNat = ((swAt 0x1000#32).effectiveAddress 1 0).toNat + 3 ∧
      (t.effectiveAddress 4 0).toNat = ((swAt 0x1000#32).effectiveAddress 1 0).toNat + 2 :=
  ⟨_, rfl, by decide, by decide, by decide⟩

theorem witness_StoreSeenByNextFetch :
    swAhead.halt = false ∧ swAhead.nextInstr = .ok (.sw 1 2 4) ∧
    swAhead.effectiveAddress 1 4 = swAhead.pc + 4#32 ∧ ∃ t, step swAhead = .next t :=
  ⟨rfl, by decide, by decide, _, rfl⟩

theorem witness_EbreakHalts :
    ∃ t u, exec (.ebreak 0 0) ebreakAt = .next t ∧ Performs t .reset (u, .done .ok) ∧ u.halt = false :=
  ⟨_, _, rfl, rfl, rfl⟩

theorem witness_EcallTenHalts : (ecallAt 10#32).readReg 17 = 10#32 := by decide

theorem witness_EcallOnePrints : (ecallAt 1#32).readReg 17 = 1#32 := by decide

/-- The pattern that differs from 10 in its sign bit only; then the numbers beside 1 and 10. -/
theorem witness_EcallOtherFails :
    (ecallAt 0x8000000A#32).halt = false ∧ (ecallAt 0x8000000A#32).fetch = .ok 0x73#32 ∧
    decodeWith (ecallAt 0x8000000A#32).extList 0x73#32 = .ok (.ecall 0 0) ∧
    (ecallAt 0x8000000A#32).readReg 17 ≠ 10#32 ∧ (ecallAt 0x8000000A#32).readReg 17 ≠ 1#32 := by decide

theorem witness_EcallOtherFails_nearby :
    [0#32, 2#32, 9#32, 11#32].all (fun call => (ecallAt call).readReg 17 != 10#32 && (ecallAt call).readReg 17 != 1#32) := by
  decide

theorem witness_EcallNeedsItsExtension :
    let s : State := { ecallAt 10#32 with extList := [.base, .muldiv] }
    s.halt = false ∧ s.fetch = .ok 0x73#32 ∧ 0x73#32 &&& 0xFFF0707F#32 = 0x00000073#32 ∧ Ext.envcall ∉ s.extList := by
  decide

/-- An exact division, and the overflow case. -/
theorem witness_DivisionIdentity :
    (3 : Reg) ≠ 0 ∧ addAt.readReg 2 ≠ 0#32 ∧
    (let s := at100 0x0220C1B3#32 [(1, 0x80000000#32), (2, 0xFFFFFFFF#32)]
     s.readReg 2 ≠ 0#32 ∧ s.readReg 1 = 0x80000000#32 ∧ s.readReg 2 = 0xFFFFFFFF#32) := by decide

/-- A halted state, a pc whose last byte is out of bounds, a word that nothing matches, one that two
copies of BASE match, and one that one behavior matches, with a next state and with an error. -/
theorem witness_StepInOrder :
    addAt.setHalt.halt = true ∧
    (let s : State := { State.reset with pc := 0xFFFD#32 }; s.halt = false ∧ ¬s.pc.toNat + 4 ≤ s.memSize) ∧
    (let s : State := { State.reset with pc := 0xFFFC#32 }; s.halt = false ∧ s.pc.toNat + 4 ≤ s.memSize ∧
      (matching s.extList s.wordAtPc).length = 0) ∧
    (let s : State := { addAt with extList := [.base, .base] }
     s.halt = false ∧ s.pc.toNat + 4 ≤ s.memSize ∧ 2 ≤ (matching s.extList s.wordAtPc).length) ∧
    (addAt.halt = false ∧ addAt.pc.toNat + 4 ≤ addAt.memSize ∧ matching addAt.extList addAt.wordAtPc = [.add]) ∧
    matching (lwAt 0xFFFD#32).extList (lwAt 0xFFFD#32).wordAtPc = [.lw] := by decide

theorem witness_StepInOrder_outcomes :
    (∃ t, exec (Op.add.instr (decodeFields addAt.wordAtPc)) addAt = .next t) ∧
    ∃ f, exec (Op.lw.instr (decodeFields (lwAt 0xFFFD#32).wordAtPc)) (lwAt 0xFFFD#32) = .fault f :=
  ⟨⟨_, rfl⟩, _, rfl⟩

theorem witness_StepRunsDecodedInstruction :
    addAt.halt = false ∧ addAt.pc.toNat + 4 ≤ addAt.memSize ∧
    decodeWith addAt.extList addAt.wordAtPc = .ok (.add 3 1 2) ∧ ∃ t, exec (.add 3 1 2) addAt = .next t :=
  ⟨rfl, by decide, by decide, _, rfl⟩

theorem witness_DispatchCountsLoads :
    Op.add.key.matches (decodeFields 0x002081B3#32) = true ∧
    [Ext.muldiv].count Op.add.ext = 0 ∧ [Ext.base].count Op.add.ext = 1 ∧ 2 ≤ [Ext.base, .base].count Op.add.ext ∧
    ∀ op ∈ allOps, op.key.matches (decodeFields 0x00000000#32) = false := by decide

theorem witness_ExtensionOrderIrrelevant : [Ext.base, .muldiv, .envcall].Perm [.muldiv, .envcall, .base] := by decide

theorem witness_MatchIsMaskAndValue :
    (Op.add, Ext.base, 0xFE00707F#32, 0x00000033#32) ∈ matchTableA ++ matchTableB ∧
    Op.add.key.matches (decodeFields 0x002081B3#32) = true := by decide

/-- A word for each kind of illegal encoding, in the order of the statement. -/
theorem witness_IllegalWordsMatchNothing :
    let f := decodeFields
    (f 0xFFFFFFFF#32).opcode = 0b1111111#7 ∧
    ((f 0x00001067#32).opcode = 0b1100111#7 ∧ (f 0x00001067#32).funct3 ≠ 0#3) ∧
    ((f 0x00002063#32).opcode = 0b1100011#7 ∧ (f 0x00002063#32).funct3 = 2#3) ∧
    ((f 0x00003003#32).opcode = 0b0000011#7 ∧ (f 0x00003003#32).funct3 = 3#3) ∧
    ((f 0x00003023#32).opcode = 0b0100011#7 ∧ (f 0x00003023#32).funct3 = 3#3) ∧
    ((f 0x04000033#32).opcode = 0b0110011#7 ∧ (f 0x04000033#32).funct7 = 2#7) ∧
    ((f 0x40001033#32).opcode = 0b0110011#7 ∧ (f 0x40001033#32).funct7 = 32#7 ∧ (f 0x40001033#32).funct3 = 1#3) ∧
    ((f 0x02001013#32).opcode = 0b0010011#7 ∧ (f 0x02001013#32).funct3 = 1#3 ∧ (f 0x02001013#32).funct7 = 1#7) ∧
    ((f 0x02005013#32).opcode = 0b0010011#7 ∧ (f 0x02005013#32).funct3 = 5#3 ∧ (f 0x02005013#32).funct7 = 1#7) ∧
    ((f 0x0000100F#32).opcode = 0b0001111#7 ∧ (f 0x0000100F#32).funct3 = 1#3) ∧
    ((f 0x30001073#32).opcode = 0b1110011#7 ∧ (f 0x30001073#32).funct3 = 1#3) ∧
    ((f 0x30200073#32).opcode = 0b1110011#7 ∧ (f 0x30200073#32).funct12 = 0x302#12) ∧
    (0x00004501#32).extractLsb 1 0 = 1#2 := by decide

theorem witness_DecodeAfterEncode :
    (Instr.bne 1 2 (-8)).wellFormed = true ∧ fullExtensions.count (Instr.bne 1 2 (-8)).op.ext = 1 := by decide

theorem witness_EncodeAfterDecode : decodeWith fullExtensions 0xFE209CE3#32 = .ok (.bne 1 2 (-8)) := by decide

theorem witness_StepKeepsInvariant : addAt.Inv ∧ ∃ t, step addAt = .next t := ⟨addAt_inv, _, rfl⟩

/-- A reset, a step that ends in an error, and a run without a budget that halts. -/
theorem witness_CommandsKeepInvariant :
    addAt.Inv ∧ (∃ t r, Performs addAt .reset (t, r)) ∧ (∃ t r, Performs (lwAt 0xFFFD#32) .step (t, r)) ∧
    ∃ t r, Performs ebreakAt (.run none) (t, r) :=
  ⟨addAt_inv, ⟨_, _, rfl⟩, ⟨_, _, rfl⟩, _, _, _, _, ⟨1, rfl, .inl rfl⟩, rfl⟩

/-- Both halting instructions, a halted state, and an image that ends with memory. -/
theorem witness_HaltConvention :
    (ecallAt 10#32).readReg 17 = 10#32 ∧
    (ebreakAt.halt = false ∧ after ebreakAt (fun t => t.halt) = true) ∧
    ((ecallAt 10#32).halt = false ∧ after (ecallAt 10#32) (fun t => t.halt) = true) ∧
    (addAt.setHalt.halt = true ∧ addAt.setHalt.resetCommand.halt = false) ∧
    (0xFFFE#32).toNat + [1#8, 2#8].length ≤ addAt.setHalt.memSize ∧ 1 < [1#8, 2#8].length := by decide

theorem witness_HaltConvention_reset : Performs addAt.setHalt .reset (addAt.setHalt.resetCommand, .done .ok) := rfl

theorem witness_OnlyStoresChangeMemory :
    ∃ t, step (swAt 0x1000#32) = .next t ∧ (t.mem.read 0x1003 != (swAt 0x1000#32).mem.read 0x1003) = true :=
  after_next (p := fun t => t.mem.read 0x1003 != (swAt 0x1000#32).mem.read 0x1003) (by decide)

theorem witness_OnlyPrintCallEmits : ∃ t, step (ecallAt 1#32) = .next t ∧ (t.sink != (ecallAt 1#32).sink) = true :=
  after_next (p := fun t => t.sink != (ecallAt 1#32).sink) (by decide)

theorem witness_ConfigurationFixed :
    (∃ s, construct (.int 0x1000) [.ext .base, .ext .base] = .ok s) ∧
    ∃ t r, Performs addAt (.loadImage 0#32 [1#8]) (t, r) :=
  ⟨⟨_, rfl⟩, _, _, rfl⟩

/-- A load's error changes no byte, so the same step fails again. -/
theorem witness_ErrorRepeats :
    ∃ t f, (lwAt 0xFFFD#32).stepCommand = (t, .error f) ∧ t.mem = (lwAt 0xFFFD#32).mem :=
  ⟨_, _, rfl, rfl⟩

/-- A store that is partly in bounds ends in an error; which of its two in-bounds bytes change is the
free draw, so the clause about a changed byte is met where the draw takes the new byte. -/
theorem witness_ErrorCommitsNothing :
    ∃ t, (swAt 0xFFFE#32).stepCommand = (t, .error (.bounds .store 0xFFFE 4)) ∧
      (Config.storeFaultTakesNew 0 0xFFFE = true → t.mem.read 0xFFFE ≠ (swAt 0xFFFE#32).mem.read 0xFFFE) := by
  refine ⟨(swAt 0xFFFE#32).tornStore 0xFFFE#32 4 0x11223344#32, rfl, fun h => ?_⟩
  rw [State.read_tornStore, if_pos ⟨by decide, by decide, h⟩]
  decide

theorem witness_RunIsRepeatedStep :
    (∃ t, Host.Core.run Sys2Proof.core 1 addAt = .next t) ∧
    (∃ f, Host.Core.run Sys2Proof.core 2 (lwAt 0xFFFD#32) = .fault f) ∧ addAt.SafeFor 1 :=
  ⟨⟨_, rfl⟩, ⟨_, rfl⟩, _, rfl, trivial⟩

/-- An image that ends with memory, one that is a byte too long, and empty ones at and past the end. -/
theorem witness_LoadImageAllOrNothing :
    (0xFFFE#32).toNat + [1#8, 2#8].length ≤ State.reset.memSize ∧
    ¬(0xFFFF#32).toNat + [1#8, 2#8].length ≤ State.reset.memSize ∧
    (0x10000#32).toNat + ([] : List Byte).length ≤ State.reset.memSize ∧
    ¬(0x10001#32).toNat + ([] : List Byte).length ≤ State.reset.memSize := by decide

theorem witness_LoadImageAllOrNothing_error :
    ∃ t r, Performs State.reset (.loadImage 0xFFFF#32 [1#8, 2#8]) (t, r) := ⟨_, _, rfl⟩

theorem witness_SnapshotReads : 0xFFFF < State.reset.memSize ∧ State.reset.memSize ≤ 0x10000 := by decide

theorem witness_PeekNeverFails :
    (let s : State := { State.reset with pc := 0xFFFD#32 }; ¬s.pc.toNat + 4 ≤ s.memSize) ∧
    (addAt.pc.toNat + 4 ≤ addAt.memSize ∧ matching addAt.extList addAt.wordAtPc = [.add]) ∧
    (State.reset.pc.toNat + 4 ≤ State.reset.memSize ∧
      (matching State.reset.extList State.reset.wordAtPc).length ≠ 1) ∧
    (let s : State := { addAt with extList := [.base, .base] }
     s.pc.toNat + 4 ≤ s.memSize ∧ (matching s.extList s.wordAtPc).length ≠ 1) := by decide

/-- Section 3: sizes 0, 1, 2^32 and 2^32 + 1, no extension, one twice, and a malformed entry. -/
theorem witness_ConstructResult :
    ¬(1 ≤ (0 : Int) ∧ (0 : Int) ≤ 2 ^ 32) ∧ (1 ≤ (1 : Int) ∧ (1 : Int) ≤ 2 ^ 32) ∧
    (1 ≤ (2 ^ 32 : Int) ∧ (2 ^ 32 : Int) ≤ 2 ^ 32) ∧ ¬(1 ≤ (2 ^ 32 + 1 : Int) ∧ (2 ^ 32 + 1 : Int) ≤ 2 ^ 32) ∧
    [ExtEntry.ext .base, .ext .base] = [Ext.base, .base].map .ext ∧
    [ExtEntry.ext .base, .malformed] = [Ext.base].map .ext ++ .malformed :: [] := by decide

theorem witness_StepAfterReset :
    4 ≤ ({ State.reset with memSize := 4 } : State).memSize ∧ ({ State.reset with memSize := 3 } : State).memSize < 4 := by
  decide

end Sys2Proof.Tests
end

section
/-! PROOFS. The extension functions' values, and the invariant through every command of the host. -/

namespace Sys2Proof.Machine

/-! ### Extension functions (spec/00_scope.md R11) -/

/-- Zero extension keeps the number. -/
theorem toNat_zext {n : Nat} (v : BitVec n) (h : n ≤ 32) : (zext v).toNat = v.toNat :=
  BitVec.toNat_setWidth_of_le h

/-- Sign extension adds ones above a top bit that is set: `2^32 - 2^n`. -/
theorem toNat_sext {n : Nat} (v : BitVec n) (h : n ≤ 32) :
    (sext v).toNat = v.toNat + if v.msb then 2 ^ 32 - 2 ^ n else 0 := by
  rw [sext, BitVec.toNat_signExtend, BitVec.toNat_setWidth_of_le h]

/-- Settles O2: bit `n - 1` is the top bit, and the two values are `toNat_sext` and `toNat_zext`. -/
theorem extensionFunctions : Obligations.ExtensionFunctions := by
  intro n v _ hn
  refine ⟨?_, toNat_zext v hn⟩
  rw [toNat_sext v hn, BitVec.msb_eq_getLsbD_last]
  cases v.getLsbD (n - 1) <;> rfl

/-! ### The invariant and each update of the state -/

variable {s t : State}

/-- The invariant speaks only of memory, MEM_SIZE, the stored x0 and the events. -/
theorem State.Inv.congr (h : s.Inv) (mem : t.mem = s.mem) (memSize : t.memSize = s.memSize)
    (zero : t.regs[0] = s.regs[0]) (sink : t.sink = s.sink) : t.Inv where
  memCanonical := mem ▸ h.memCanonical
  memInside := by rw [mem, memSize]; exact h.memInside
  sizeLegal := memSize ▸ h.sizeLegal
  zeroReg := zero.trans h.zeroReg
  eventsSigned := sink ▸ h.eventsSigned

theorem State.Inv.setPc (h : s.Inv) (target : Word) : (s.setPc target).Inv := h.congr rfl rfl rfl rfl

theorem State.Inv.advance (h : s.Inv) : s.advance.Inv := h.setPc _

theorem State.Inv.setHalt (h : s.Inv) : s.setHalt.Inv := h.congr rfl rfl rfl rfl

theorem State.Inv.writeReg (h : s.Inv) (rd : Reg) (v : Word) : (s.writeReg rd v).Inv :=
  h.congr (s.writeReg_mem rd v) (s.writeReg_memSize rd v) (s.writeReg_regs_zero rd v) (s.writeReg_sink rd v)

theorem State.Inv.clampX0 (h : s.Inv) : s.clampX0.Inv := h.congr rfl rfl (by simp [h.zeroReg]) rfl

/-- A printed event is the signed value of a word (60_exceptions.md R254). -/
theorem State.Inv.emit (h : s.Inv) (w : Word) : (s.emit w.toInt).Inv where
  memCanonical := h.memCanonical
  memInside := h.memInside
  sizeLegal := h.sizeLegal
  zeroReg := h.zeroReg
  eventsSigned v hv := by
    rcases List.mem_append.1 hv with old | new
    · exact h.eventsSigned v old
    · obtain rfl := List.mem_singleton.1 new
      exact ⟨BitVec.le_toInt w, BitVec.toInt_lt⟩

/-- Writing bytes inside MEM_SIZE, as a store (R53) and loadImage (R61) do. -/
theorem State.Inv.writeBytes (h : s.Inv) {a : Nat} {bs : List Byte} (inside : a + bs.length ≤ s.memSize) :
    ({ s with mem := s.mem.writeBytes a bs } : State).Inv where
  memCanonical := Memory.wf_writeBytes bs h.memCanonical a
  memInside := Memory.inside_writeBytes bs h.memInside inside
  sizeLegal := h.sizeLegal
  zeroReg := h.zeroReg
  eventsSigned := h.eventsSigned

theorem State.Inv.tornStore (h : s.Inv) (ea : Word) (n : Nat) (v : Word) : (s.tornStore ea n v).Inv where
  memCanonical := (s.wf_tornStore h.memCanonical h.memInside ea n v).1
  memInside := (s.wf_tornStore h.memCanonical h.memInside ea n v).2
  sizeLegal := h.sizeLegal
  zeroReg := h.zeroReg
  eventsSigned := h.eventsSigned

theorem State.Inv.resetCommand (h : s.Inv) : s.resetCommand.Inv where
  memCanonical := Memory.wf_nil
  memInside := List.forall_mem_nil _
  sizeLegal := h.sizeLegal
  zeroReg := by simp
  eventsSigned := h.eventsSigned

/-! ### The invariant and each command -/

theorem Effect.keeps_inv {i : Instr} (e : Effect i s t) (h : s.Inv) : t.Inv := by
  cases e with
  | writesReg rd v target => exact (h.writeReg rd v).setPc target
  | writesPc target => exact h.setPc target
  | writesMem ea n v parts inside => exact (h.writeBytes (by rwa [length_toBytes])).advance
  | halts why => exact h.setHalt
  | prints why call => exact (h.emit _).advance

theorem step_keeps_inv (h : s.Inv) (hs : step s = .next t) : t.Inv := by
  rcases step_next hs with ⟨-, rfl⟩ | ⟨-, i, u, -, -, effect, rfl⟩
  · exact h
  · exact (effect.keeps_inv h).clampX0

/-- After an error the state is as it was, or holds a torn store (60_exceptions.md R243). -/
theorem State.afterError_eq (s : State) : s.afterError = s ∨ ∃ ea n v, s.afterError = s.tornStore ea n v := by
  unfold State.afterError
  split
  · exact .inl rfl
  · split
    · exact .inl rfl
    · next ea n v _ =>
      split
      · exact .inr ⟨ea, n, v, rfl⟩
      · exact .inl rfl

theorem State.Inv.afterError (h : s.Inv) : s.afterError.Inv := by
  rcases s.afterError_eq with same | ⟨ea, n, v, torn⟩
  · rwa [same]
  · rw [torn]; exact h.tornStore ea n v

theorem State.Inv.stepCommand (h : s.Inv) : s.stepCommand.1.Inv := by
  unfold State.stepCommand
  split
  · next hs => exact step_keeps_inv h hs
  · exact h.afterError
  · exact h

/-- A run with a budget stops at once, or takes one step and ends there or runs on (R251). -/
theorem State.run_succ (s : State) (k : Nat) :
    s.run (k + 1) = (s, .ok) ∨ s.run (k + 1) = s.stepCommand ∨ s.run (k + 1) = s.stepCommand.1.run k := by
  rw [State.run]
  split
  · exact .inl rfl
  · split
    · next hs => exact .inr (.inr (by rw [hs]))
    · next hs => exact .inr (.inl hs.symm)

theorem State.Inv.run (h : s.Inv) (k : Nat) : (s.run k).1.Inv := by
  induction k generalizing s with
  | zero => exact h
  | succ k ih =>
    rcases s.run_succ k with halted | ended | goesOn
    · rwa [halted]
    · rw [ended]; exact h.stepCommand
    · rw [goesOn]; exact ih h.stepCommand

/-- A loadImage that succeeds was in bounds and wrote its bytes (20_memory.md R61). -/
theorem State.loadImage_eq_ok {base : Word} {bytes : List Byte} :
    s.loadImage base bytes = .ok t ↔
      base.toNat + bytes.length ≤ s.memSize ∧ t = { s with mem := s.mem.writeBytes base.toNat bytes } := by
  unfold State.loadImage State.inBounds
  by_cases h : base.toNat + bytes.length ≤ s.memSize <;> simp [h, eq_comm]

theorem State.Inv.loadImage {base : Word} {bytes : List Byte} (h : s.Inv) (ok : s.loadImage base bytes = .ok t) :
    t.Inv := by
  obtain ⟨inside, rfl⟩ := State.loadImage_eq_ok.1 ok
  exact h.writeBytes inside

theorem Performs.keeps_inv {c : Command} {r : Reply} (hp : Performs s c (t, r)) (h : s.Inv) : t.Inv := by
  cases c with
  | reset => cases hp; exact h.resetCommand
  | loadImage base bytes =>
    simp only [Performs] at hp
    split at hp
    · next ok => cases hp; exact h.loadImage ok
    · cases hp; exact h
  | step => cases hp; exact h.stepCommand
  | run maxSteps =>
    cases maxSteps with
    | some k => cases hp; exact h.run k
    | none =>
      obtain ⟨_, _, ⟨k, hk, -⟩, same⟩ := hp
      cases same
      simpa only [hk] using h.run k
  | peek | readRegs | readPc | readHalt => cases hp; exact h
  | readMem a =>
    simp only [Performs] at hp
    split at hp
    · cases hp; exact h
    · cases hp; exact h

/-- Settles O39: each command is a composition of updates that keep the invariant; a run by induction on
the steps it took. -/
theorem commandsKeepInvariant : Obligations.CommandsKeepInvariant :=
  fun _ _ _ _ h hp => hp.keeps_inv h

end Sys2Proof.Machine
end

section
/-! PROOFS. The state of a constructed CORE (spec/10_state.md): its invariant, x0, its configuration, and the snapshot reads. -/

namespace Sys2Proof

/-- The order of the loaded extensions changes no list of matches: with a match the list is that behavior,
as often as its extension is loaded (`matching_of_matches`), and without one it is empty. -/
theorem matching_eq_of_perm {exts exts' : List Ext} (h : exts.Perm exts') (w : Word) :
    matching exts w = matching exts' w := by
  by_cases hm : ∃ op : Op, op.key.matches (decodeFields w) = true
  · obtain ⟨op, hop⟩ := hm
    rw [matching_of_matches hop, matching_of_matches hop, h.count_eq]
  · have empty (l : List Ext) : matching l w = [] := List.filter_eq_nil_iff.2 fun op _ hop => hm ⟨op, hop⟩
    rw [empty, empty]

/-- Settles O30: dispatch sees EXT_LIST only through the list of matches, which no reordering changes. -/
theorem extensionOrderIrrelevant : Obligations.ExtensionOrderIrrelevant := by
  intro exts exts' h w
  unfold dispatch
  rw [matching_eq_of_perm h]

end Sys2Proof

namespace Sys2Proof.Machine

variable {s t : State}

/-! ### The invariant at reset and through a step -/

/-- Settles O38: the instruction's effect keeps the invariant, and so does the clamp. -/
theorem stepKeepsInvariant : Obligations.StepKeepsInvariant :=
  fun _ _ h hs => step_keeps_inv h hs

/-- Settles O37: nothing is listed in memory and nothing was printed; MEM_SIZE and x0 are evaluated. -/
theorem resetMeetsInvariant : Obligations.ResetMeetsInvariant where
  memCanonical := Memory.wf_nil
  memInside := List.forall_mem_nil _
  sizeLegal := by decide
  zeroReg := by decide
  eventsSigned := List.forall_mem_nil _

/-! ### x0 (R22) -/

@[simp] theorem State.writeReg_zero (s : State) (v : Word) : s.writeReg 0 v = s := if_pos rfl

theorem State.clampX0_regs_zero (s : State) : s.clampX0.regs[0] = 0#32 := by simp

/-- Settles O1: x0 is special at the accessors, zero in every initial state, and clamped by every step. -/
theorem zeroRegisterStaysZero : Obligations.ZeroRegisterStaysZero := by
  refine ⟨State.readReg_zero, fun s v r => ?_, fun size entries s hc => ?_, fun s => ?_, fun s t running hs => ?_⟩
  · rw [State.writeReg_zero]
  · obtain ⟨n, exts, -, -, -, -, rfl⟩ := construct_eq_ok.1 hc
    exact resetMeetsInvariant.zeroReg
  · simp
  · rcases step_next hs with ⟨halted, -⟩ | ⟨-, i, u, -, -, -, rfl⟩
    · rw [running] at halted; cases halted
    · exact u.clampX0_regs_zero

/-! ### The configuration (R31) -/

/-- MEM_SIZE and EXT_LIST, the two construct arguments, are as before; `SameConfig` also fixes the model's
draw counter, which a torn store moves. -/
structure SameArguments (s t : State) : Prop where
  memSize : t.memSize = s.memSize
  extList : t.extList = s.extList

theorem SameArguments.refl (s : State) : SameArguments s s := ⟨rfl, rfl⟩

theorem SameArguments.trans {u : State} (h : SameArguments s t) (h' : SameArguments t u) : SameArguments s u :=
  ⟨h'.memSize.trans h.memSize, h'.extList.trans h.extList⟩

theorem Effect.sameArguments {i : Instr} (e : Effect i s t) : SameArguments s t := by
  cases e with
  | writesReg rd v target => exact ⟨s.writeReg_memSize rd v, s.writeReg_extList rd v⟩
  | writesPc target => exact ⟨rfl, rfl⟩
  | writesMem ea n v parts inside => exact ⟨rfl, rfl⟩
  | halts why => exact ⟨rfl, rfl⟩
  | prints why call => exact ⟨rfl, rfl⟩

theorem step_sameArguments (hs : step s = .next t) : SameArguments s t := by
  rcases step_next hs with ⟨-, rfl⟩ | ⟨-, i, u, -, -, effect, rfl⟩
  · exact .refl t
  · exact effect.sameArguments.trans ⟨rfl, rfl⟩

theorem State.afterError_sameArguments (s : State) : SameArguments s s.afterError := by
  rcases s.afterError_eq with same | ⟨ea, n, v, torn⟩
  · rw [same]; exact .refl s
  · rw [torn]; exact ⟨rfl, rfl⟩

theorem State.stepCommand_sameArguments (s : State) : SameArguments s s.stepCommand.1 := by
  unfold State.stepCommand
  split
  · next hs => exact step_sameArguments hs
  · exact s.afterError_sameArguments
  · exact .refl s

/-- What holds before a run and is kept by every step command holds after it. -/
theorem State.run_induction {P : State → Prop} (step : ∀ u : State, P u → P u.stepCommand.1) (k : Nat)
    (h : P s) : P (s.run k).1 := by
  induction k generalizing s with
  | zero => exact h
  | succ k ih =>
    rcases s.run_succ k with halted | ended | goesOn
    · rwa [halted]
    · rw [ended]; exact step s h
    · rw [goesOn]; exact ih (step s h)

/-- What holds before a command and is kept by reset, by a loadImage that succeeds and by every step
command holds after it: the other commands change no state. -/
theorem Performs.induction {P : State → Prop} (reset : ∀ u : State, P u → P u.resetCommand)
    (loadImage : ∀ (u v : State) (base : Word) (bytes : List Byte), u.loadImage base bytes = .ok v → P u → P v)
    (step : ∀ u : State, P u → P u.stepCommand.1) {c : Command} {r : Reply} (hp : Performs s c (t, r))
    (h : P s) : P t := by
  cases c with
  | reset => cases hp; exact reset s h
  | loadImage base bytes =>
    simp only [Performs] at hp
    split at hp
    · next ok => cases hp; exact loadImage s t base bytes ok h
    · cases hp; exact h
  | step => cases hp; exact step s h
  | run maxSteps =>
    cases maxSteps with
    | some k => cases hp; exact State.run_induction step k h
    | none =>
      obtain ⟨_, _, ⟨k, hk, -⟩, same⟩ := hp
      cases same
      simpa only [hk] using State.run_induction step k h
  | peek | readRegs | readPc | readHalt => cases hp; exact h
  | readMem a =>
    simp only [Performs] at hp
    split at hp
    · cases hp; exact h
    · cases hp; exact h

theorem Performs.sameArguments {c : Command} {r : Reply} (hp : Performs s c (t, r)) : SameArguments s t := by
  refine Performs.induction (P := SameArguments s) (fun u h => ?_) (fun u v base bytes ok h => ?_) (fun u h => ?_) hp
    (.refl s)
  · exact h.trans ⟨rfl, rfl⟩
  · obtain ⟨-, rfl⟩ := State.loadImage_eq_ok.1 ok
    exact h.trans ⟨rfl, rfl⟩
  · exact h.trans u.stepCommand_sameArguments

/-- Settles O44: construct stores its two arguments, and every command keeps them. -/
theorem configurationFixed : Obligations.ConfigurationFixed := by
  refine ⟨fun size entries s hc => ?_, fun s t c r hp => ?_⟩
  · obtain ⟨n, exts, hsize, -, -, hentries, rfl⟩ := construct_eq_ok.1 hc
    exact ⟨hsize, hentries⟩
  · exact ⟨hp.sameArguments.memSize, hp.sameArguments.extList⟩

/-! ### The snapshot reads (R35, 20_memory.md R62) -/

@[simp] theorem State.length_readRegs (s : State) : s.readRegs.length = 32 := by simp [State.readRegs]

theorem State.getElem?_readRegs (s : State) (r : Reg) : s.readRegs[r.val]? = some (s.readReg r).toInt := by
  simp [State.readRegs]

theorem State.readMem_of_lt {a : Nat} (h : a < s.memSize) : s.readMem a = .ok (s.mem.read a) := if_pos h

theorem State.readMem_of_le {a : Nat} (h : s.memSize ≤ a) : s.readMem a = .error (.bounds .hostRead a 1) :=
  if_neg (Nat.not_lt.2 h)

/-- Settles O49: each read's reply is a function of the state, which the read hands back. -/
theorem snapshotReads : Obligations.SnapshotReads := by
  intro s
  refine ⟨⟨s.length_readRegs, s.getElem?_readRegs⟩, fun _ _ => Prod.mk_inj, fun _ _ => Prod.mk_inj,
    fun _ _ => Prod.mk_inj, fun a t r inside => ?_, fun a t r outside => ?_⟩
  · simp only [Performs, State.readMem_of_lt inside, Prod.mk.injEq]
  · simp only [Performs, State.readMem_of_le outside, Prod.mk.injEq]

end Sys2Proof.Machine
end

section
/-! PROOFS. Memory (spec/20_memory.md): loads and fetches after a store, where a step writes, and loadImage. -/

namespace Sys2Proof

/-- The four bytes of a word make the word again (R52 to R54). -/
theorem ofBytes_toBytes_four (v : Word) : ofBytes (toBytes 4 v) = v := by
  have assembled : ofBytes (toBytes 4 v) = byteOf v 3 ++ byteOf v 2 ++ byteOf v 1 ++ byteOf v 0 :=
    Machine.ofBytes_four _ _ _ _
  rw [assembled]
  apply BitVec.eq_of_getLsbD_eq
  intro i hi
  simp only [byteOf, BitVec.getLsbD_append, BitVec.getLsbD_extractLsb']
  interval_cases i <;> rfl

/-- The bytes of a pattern from byte 0 up. -/
theorem map_byteOf_zero_add (n : Nat) (v : Word) : ((List.range n).map fun i => byteOf v (0 + i)) = toBytes n v := by
  simp only [Nat.zero_add]; rfl

end Sys2Proof

namespace Sys2Proof.Machine

variable {s t : State} {ea ea' : Word} {n : Nat} {v : Word}

/-! ### Reading inside a stored pattern (R54, R55, R66) -/

/-- A store that answers a next state was in bounds and had the effect of a store. -/
theorem writesMem_of_store (h : store ea n v s = .next t) : ea.toNat + n ≤ s.memSize ∧ WritesMem s t ea n v := by
  obtain ⟨inside, -⟩ := store_next s h
  obtain ⟨u, hu, effect⟩ := store_writesMem s (v := v) inside
  obtain rfl : u = t := Host.Outcome.next.inj (hu.symm.trans h)
  exact ⟨inside, effect⟩

/-- An access inside the stored bytes reads the bytes of the pattern. -/
theorem OnlyBytes.readBytes (h : OnlyBytes s t ea n v) {k l : Nat} (hkl : k + l ≤ n) :
    t.mem.readBytes (ea.toNat + k) l = (List.range l).map fun i => byteOf v (k + i) := by
  refine List.map_congr_left fun i hi => ?_
  have hi : i < l := List.mem_range.1 hi
  rw [Nat.add_assoc]
  exact h.1 (k + i) (by omega)

/-- A word access at the address of a stored word reads the word. -/
theorem OnlyBytes.ofBytes_readBytes_four (h : OnlyBytes s t ea 4 v) : ofBytes (t.mem.readBytes ea.toNat 4) = v := by
  rw [← Nat.add_zero ea.toNat, h.readBytes (Nat.le_refl (0 + 4)), map_byteOf_zero_add, ofBytes_toBytes_four]

/-- A load inside bytes that a completed store wrote completes with the bytes of the stored pattern. -/
theorem load_of_store (h : store ea n v s = .next t) (rd : Reg) (extend : Word → Word) {k l : Nat}
    (hkl : k + l ≤ n) (at' : ea'.toNat = ea.toNat + k) :
    ∃ u, load rd ea' l extend t = .next u ∧
      WritesReg t u rd (extend (ofBytes ((List.range l).map fun i => byteOf v (k + i)))) (t.pc + 4#32) := by
  obtain ⟨inside, effect⟩ := writesMem_of_store h
  have inside' : ea'.toNat + l ≤ t.memSize := by rw [effect.config.memSize]; omega
  rw [← effect.mem.readBytes hkl, ← at']
  exact load_writesReg t inside'

/-- Settles O14: each load lies inside the stored word, so its bytes are the word's (`load_of_store`); what
is left is to assemble four, one or two of them. -/
theorem storeThenLoad : Obligations.StoreThenLoad := by
  intro rd rs1 rs1' rs2 imm imm' s t stored ea ea' v
  refine ⟨fun same => ?_, fun k hk at' => ?_, fun k hk at' => ?_⟩
  · have loaded := load_of_store stored rd (fun w => w) (Nat.le_refl (0 + 4)) (congrArg BitVec.toNat same)
    rwa [map_byteOf_zero_add, ofBytes_toBytes_four] at loaded
  · have byte : (ofBytes ((List.range 1).map fun i => byteOf v (k + i))).setWidth 8 = byteOf v k := by
      simp [ofBytes_one]
    have loaded := load_of_store stored rd (fun w => zext (w.setWidth 8)) (l := 1) (by omega) at'
    rwa [byte] at loaded
  · have half : (ofBytes ((List.range 2).map fun i => byteOf v (k + i))).setWidth 16 =
        byteOf v (k + 1) ++ byteOf v k := by
      rw [show (List.range 2).map (fun i => byteOf v (k + i)) = [byteOf v k, byteOf v (k + 1)] from rfl, ofBytes_two,
        BitVec.setWidth_setWidth_of_le _ (by decide), BitVec.setWidth_eq]
    have loaded := load_of_store stored rd (fun w => zext (w.setWidth 16)) (l := 2) (by omega) at'
    rwa [half] at loaded

/-- Settles O15: after the step the pc is the store's address, so the fetch reads the stored word. -/
theorem storeSeenByNextFetch : Obligations.StoreSeenByNextFetch := by
  intro rs1 rs2 imm s t running next atNextPc hs
  obtain ⟨halted, -⟩ | ⟨-, i, u, hi, stored, -, rfl⟩ := step_next hs
  · rw [running] at halted; cases halted
  · obtain rfl : .sw rs1 rs2 imm = i := Except.ok.inj (next.symm.trans hi)
    obtain ⟨inside, effect⟩ := writesMem_of_store stored
    have pc : u.pc = s.effectiveAddress rs1 imm := effect.pc.trans atNextPc.symm
    rw [fetch_ok, State.clampX0_pc, State.clampX0_mem, State.clampX0_memSize, pc, effect.config.memSize]
    exact ⟨inside, effect.mem.ofBytes_readBytes_four.symm⟩

/-! ### Where a step writes (R58) -/

/-- The instructions that store are sb, sh and sw, of 1, 2 and 4 bytes at their effective address
(43_load_store.md R186 to R188). -/
theorem storeParts_eq_some {i : Instr} (h : storeParts s i = some (ea, n, v)) :
    ∃ rs1 rs2 imm,
      ((i = .sb rs1 rs2 imm ∧ n = 1) ∨ (i = .sh rs1 rs2 imm ∧ n = 2) ∨ (i = .sw rs1 rs2 imm ∧ n = 4)) ∧
      ea = s.effectiveAddress rs1 imm ∧ v = s.readReg rs2 := by
  cases i
  case sb rs1 rs2 imm => cases h; exact ⟨rs1, rs2, imm, .inl ⟨rfl, rfl⟩, rfl, rfl⟩
  case sh rs1 rs2 imm => cases h; exact ⟨rs1, rs2, imm, .inr (.inl ⟨rfl, rfl⟩), rfl, rfl⟩
  case sw rs1 rs2 imm => cases h; exact ⟨rs1, rs2, imm, .inr (.inr ⟨rfl, rfl⟩), rfl, rfl⟩
  all_goals cases h

/-- An effect changes a byte of memory only if it is that of a store whose bytes include it. -/
theorem Effect.changed_byte {i : Instr} (e : Effect i s t) {a : Nat} (changed : t.mem.read a ≠ s.mem.read a) :
    ∃ ea n v, storeParts s i = some (ea, n, v) ∧ ea.toNat ≤ a ∧ a < ea.toNat + n := by
  cases e with
  | writesReg rd v target => exact absurd (by simp) changed
  | writesPc target => exact absurd rfl changed
  | writesMem ea n v parts inside =>
    rw [State.advance_mem, Memory.read_writeBytes_toBytes] at changed
    exact ⟨ea, n, v, parts, (ite_ne_right_iff.1 changed).1⟩
  | halts why => exact absurd rfl changed
  | prints why call => exact absurd rfl changed

/-- Settles O42: neither a halted step nor the clamp writes memory, so the byte lies in the store that the
executed instruction is. -/
theorem onlyStoresChangeMemory : Obligations.OnlyStoresChangeMemory := by
  intro s t a hs changed
  obtain ⟨-, rfl⟩ | ⟨-, i, u, next, -, effect, rfl⟩ := step_next hs
  · exact absurd rfl changed
  · obtain ⟨ea, n, v, parts, low, high⟩ := effect.changed_byte changed
    obtain ⟨rs1, rs2, imm, kind, rfl, -⟩ := storeParts_eq_some parts
    refine ⟨rs1, rs2, imm, n, ?_, low, high⟩
    simpa only [next, Except.ok.injEq] using kind

/-! ### loadImage (R61) -/

/-- An image that does not fit is a BoundsError. -/
theorem State.loadImage_eq_error {base : Word} {bytes : List Byte} (h : ¬base.toNat + bytes.length ≤ s.memSize) :
    s.loadImage base bytes = .error (.bounds .image base.toNat bytes.length) :=
  if_neg (mt s.inBounds_iff.1 h)

/-- Settles O48: loadImage is one run of byte writes at increasing addresses, or the error and no state. -/
theorem loadImageAllOrNothing : Obligations.LoadImageAllOrNothing := by
  intro s base bytes
  refine ⟨fun fits => ?_, fun tooLong => ?_⟩
  · have ok : s.loadImage base bytes = .ok { s with mem := s.mem.writeBytes base.toNat bytes } :=
      State.loadImage_eq_ok.2 ⟨fits, rfl⟩
    refine ⟨_, ok, ?_, fun k hk => ?_, fun a outside => ?_, fun _ => rfl, rfl, ⟨rfl, rfl⟩, ⟨rfl, rfl, rfl⟩⟩
    · simp only [Performs, ok]
    · rw [Memory.read_writeBytes, if_pos ⟨by omega, by omega⟩, Nat.add_sub_cancel_left]
    · rw [Memory.read_writeBytes, if_neg (by omega)]
  · have error := State.loadImage_eq_error tooLong
    refine ⟨error, fun t r hp => ?_⟩
    simpa only [Performs, error, Prod.mk.injEq] using hp

end Sys2Proof.Machine
end

section
/-! PROOFS. The encoding (spec/30_encoding.md R80 to R92): the round trips between words and instructions, and the
match keys as masks. -/

namespace Sys2Proof

/-! ### Decode after encode -/

/-- Every instruction's word matches its own behavior, which reads its operands back. -/
theorem Laws.OwnKey.statement (i : Instr) : Statement i :=
  match i with
  | .lui .. => lui ..
  | .auipc .. => auipc ..
  | .jal .. => jal ..
  | .jalr .. => jalr ..
  | .beq .. => beq ..
  | .bne .. => bne ..
  | .blt .. => blt ..
  | .bge .. => bge ..
  | .bltu .. => bltu ..
  | .bgeu .. => bgeu ..
  | .lb .. => lb ..
  | .lh .. => lh ..
  | .lw .. => lw ..
  | .lbu .. => lbu ..
  | .lhu .. => lhu ..
  | .sb .. => sb ..
  | .sh .. => sh ..
  | .sw .. => sw ..
  | .addi .. => addi ..
  | .slti .. => slti ..
  | .sltiu .. => sltiu ..
  | .xori .. => xori ..
  | .ori .. => ori ..
  | .andi .. => andi ..
  | .slli .. => slli ..
  | .srli .. => srli ..
  | .srai .. => srai ..
  | .add .. => add ..
  | .sub .. => sub ..
  | .sll .. => sll ..
  | .slt .. => slt ..
  | .sltu .. => sltu ..
  | .xor .. => xor ..
  | .srl .. => srl ..
  | .sra .. => sra ..
  | .or .. => or ..
  | .and .. => and ..
  | .fence .. => fence ..
  | .ecall .. => ecall ..
  | .ebreak .. => ebreak ..
  | .mul .. => mul ..
  | .mulh .. => mulh ..
  | .mulhsu .. => mulhsu ..
  | .mulhu .. => mulhu ..
  | .div .. => div ..
  | .divu .. => divu ..
  | .rem .. => rem ..
  | .remu .. => remu ..

theorem decodeWith_encode {i : Instr} {exts : List Ext} (wf : i.wellFormed = true) (once : exts.count i.op.ext = 1) :
    decodeWith exts (encode i) = .ok i := by
  obtain ⟨ownKey, readBack⟩ := Laws.OwnKey.statement i
  exact decodeWith_ok.2 ⟨i.op, dispatch_of_matches ownKey once, (readBack wf).symm⟩

theorem count_fullExtensions (e : Ext) : fullExtensions.count e = 1 := by cases e <;> rfl

theorem decode_encode {i : Instr} (wf : i.wellFormed = true) : decode (encode i) = some i := by
  rw [decode, decodeWith_encode wf (count_fullExtensions _)]; rfl

/-- Decoding bytes that begin with a word's four is decoding the word (R81). -/
theorem decodeBytes_toBytes_append (exts : List Ext) (w : Word) (rest : List Byte) :
    decodeBytes exts (toBytes 4 w ++ rest) = (decodeWith exts w).map (·, rest) := by
  have head : decodeBytes exts (toBytes 4 w ++ rest) = (decodeWith exts (ofBytes (toBytes 4 w))).map (·, rest) := rfl
  rw [head, ofBytes_toBytes_four]

/-- Settles O34: the word matches the behavior of its instruction and no other, and the fields read its
operands back. -/
theorem decodeAfterEncode : Obligations.DecodeAfterEncode := by
  intro i exts rest wf once
  refine ⟨decodeWith_encode wf once, decode_encode wf, ?_⟩
  rw [decodeBytes_toBytes_append, decodeWith_encode wf once]
  rfl

/-! ### Encode after decode -/

/-- A word is the encoding of its own fields, in each format (R90): a format places every bit of the word once. -/
theorem encode_fields (w : Word) :
    let f := decodeFields w
    encodeR f.funct7 f.rs2 f.rs1 f.funct3 f.rd f.opcode = w ∧ encodeI f.immI f.rs1 f.funct3 f.rd f.opcode = w ∧
      encodeS f.immS f.rs2 f.rs1 f.funct3 f.opcode = w ∧ encodeB f.immB f.rs2 f.rs1 f.funct3 f.opcode = w ∧
      encodeU f.immU f.rd f.opcode = w ∧ encodeJ f.immJ f.rd f.opcode = w := by
  dsimp only [decodeFields, encodeR, encodeI, encodeS, encodeB, encodeU, encodeJ, toField_ofField, BitVec.extractLsb]
  refine ⟨?_, ?_, ?_, ?_, ?_, ?_⟩
  all_goals
    apply BitVec.eq_of_getLsbD_eq; intro i hi
    simp only [BitVec.getLsbD_extractLsb', BitVec.getLsbD_append]
    interval_cases i <;> rfl

theorem Key.tests_iff {n : Nat} {wanted : Option (BitVec n)} {value : BitVec n} :
    Key.tests wanted value = true ↔ ∀ v ∈ wanted, v = value := by
  cases wanted <;> simp [Key.tests]

/-- A key matches the words whose fields have the values it names (R91). -/
theorem Key.matches_iff {k : Key} {f : DecodedFields} :
    k.matches f = true ↔ k.opcode = f.opcode ∧ (∀ v ∈ k.funct3, v = f.funct3) ∧ (∀ v ∈ k.funct7, v = f.funct7) ∧
      ∀ v ∈ k.funct12, v = f.funct12 := by
  simp only [Key.matches, Bool.and_eq_true, beq_iff_eq, Key.tests_iff, and_assoc]

section EncodeInstr

/-! The word of a behavior's instruction, by the shape of the behavior's key: `matches_iff` gives back the fields
that the key fixes, and `encode_fields` the word. -/

variable {w : Word} {opcode : BitVec 7} {funct3 : BitVec 3} {funct7 : BitVec 7} {funct12 : BitVec 12}

theorem encode_of_opcode (h : Key.matches { opcode } (decodeFields w) = true) :
    encodeU (decodeFields w).immU (decodeFields w).rd opcode = w ∧
      encodeJ (decodeFields w).immJ (decodeFields w).rd opcode = w := by
  obtain ⟨rfl, -⟩ := Key.matches_iff.1 h
  obtain ⟨-, -, -, -, formatU, formatJ⟩ := encode_fields w
  exact ⟨formatU, formatJ⟩

theorem encode_of_funct3 (h : Key.matches { opcode, funct3 := some funct3 } (decodeFields w) = true) :
    encodeI (decodeFields w).immI (decodeFields w).rs1 funct3 (decodeFields w).rd opcode = w ∧
      encodeS (decodeFields w).immS (decodeFields w).rs2 (decodeFields w).rs1 funct3 opcode = w ∧
      encodeB (decodeFields w).immB (decodeFields w).rs2 (decodeFields w).rs1 funct3 opcode = w := by
  obtain ⟨rfl, h3, -⟩ := Key.matches_iff.1 h
  obtain rfl := h3 _ rfl
  obtain ⟨-, formatI, formatS, formatB, -⟩ := encode_fields w
  exact ⟨formatI, formatS, formatB⟩

theorem encode_of_funct7
    (h : Key.matches { opcode, funct3 := some funct3, funct7 := some funct7 } (decodeFields w) = true) :
    encodeR funct7 (decodeFields w).rs2 (decodeFields w).rs1 funct3 (decodeFields w).rd opcode = w := by
  obtain ⟨rfl, h3, h7, -⟩ := Key.matches_iff.1 h
  obtain rfl := h3 _ rfl
  obtain rfl := h7 _ rfl
  obtain ⟨formatR, -⟩ := encode_fields w
  exact formatR

theorem encode_of_funct12
    (h : Key.matches { opcode, funct3 := some funct3, funct12 := some funct12 } (decodeFields w) = true) :
    encodeI funct12 (decodeFields w).rs1 funct3 (decodeFields w).rd opcode = w := by
  obtain ⟨rfl, h3, -, h12⟩ := Key.matches_iff.1 h
  obtain rfl := h3 _ rfl
  obtain rfl := h12 _ rfl
  obtain ⟨-, formatI, -⟩ := encode_fields w
  exact formatI

end EncodeInstr

/-- The instruction that a matching behavior reads out of a word has that word. -/
theorem encode_instr {op : Op} {w : Word} (h : op.key.matches (decodeFields w) = true) :
    encode (op.instr (decodeFields w)) = w := by
  cases op
  case lui | auipc =>
    obtain ⟨formatU, -⟩ := encode_of_opcode h
    exact formatU
  case jal =>
    obtain ⟨-, formatJ⟩ := encode_of_opcode h
    exact formatJ
  case beq | bne | blt | bge | bltu | bgeu =>
    obtain ⟨-, -, formatB⟩ := encode_of_funct3 h
    exact formatB
  case sb | sh | sw =>
    obtain ⟨-, formatS, -⟩ := encode_of_funct3 h
    exact formatS
  case jalr | lb | lh | lw | lbu | lhu | addi | slti | sltiu | xori | ori | andi | fence =>
    obtain ⟨formatI, -⟩ := encode_of_funct3 h
    exact formatI
  case ecall | ebreak => exact encode_of_funct12 h
  all_goals exact encode_of_funct7 h

/-- Bit 0 of a branch or jump offset is not in the word: it is read as 0 (R86, R88). -/
theorem evenOffset_append {n : Nat} (v : BitVec n) : evenOffset (v ++ 0#1) = true := by
  rw [evenOffset, BitVec.getLsbD_append]; rfl

theorem wellFormed_instr (op : Op) (w : Word) : (op.instr (decodeFields w)).wellFormed = true := by
  cases op
  case jal | beq | bne | blt | bge | bltu | bgeu => exact evenOffset_append _
  all_goals rfl

/-- Settles O35: dispatch found a behavior that matches the word, so its instruction has that word. -/
theorem encodeAfterDecode : Obligations.EncodeAfterDecode := by
  intro exts w i decoded
  obtain ⟨op, found, rfl⟩ := decodeWith_ok.1 decoded
  obtain ⟨hit, -⟩ := dispatch_found found
  exact ⟨wellFormed_instr op w, encode_instr hit⟩

/-! ### Match keys as mask and value (R92) -/

/-- Masking a word keeps the fields that the mask names and clears the rest. -/
theorem and_mask (w : Word) :
    let f := decodeFields w
    w &&& 0x0000007F#32 = encodeU 0 0 f.opcode ∧ w &&& 0x0000707F#32 = encodeI 0 0 f.funct3 0 f.opcode ∧
      w &&& 0xFE00707F#32 = encodeR f.funct7 0 0 f.funct3 0 f.opcode ∧
      w &&& 0xFFF0707F#32 = encodeI f.funct12 0 f.funct3 0 f.opcode := by
  dsimp only [decodeFields, encodeR, encodeI, encodeU, toField, BitVec.extractLsb]
  refine ⟨?_, ?_, ?_, ?_⟩
  all_goals
    apply BitVec.eq_of_getLsbD_eq; intro i hi
    simp only [BitVec.getLsbD_and, BitVec.getLsbD_extractLsb', BitVec.getLsbD_append]
    interval_cases i <;> simp

section MaskAndValue

/-! A key as a mask and a value, by its shape: the value is the encoding with zeros outside the key (R92). -/

variable {w : Word} {opcode : BitVec 7} {funct3 : BitVec 3} {funct7 : BitVec 7} {funct12 : BitVec 12}

theorem encodeU_key_inj {opcode' : BitVec 7} : encodeU 0 0 opcode' = encodeU 0 0 opcode ↔ opcode = opcode' := by
  refine ⟨fun h => ?_, fun h => h ▸ rfl⟩
  obtain ⟨ho, -⟩ := fields_encodeU 0 0 opcode
  obtain ⟨ho', -⟩ := fields_encodeU 0 0 opcode'
  exact ho.symm.trans (h ▸ ho')

theorem encodeI_key_inj {opcode' : BitVec 7} {funct3' : BitVec 3} {funct12' : BitVec 12} :
    encodeI funct12' 0 funct3' 0 opcode' = encodeI funct12 0 funct3 0 opcode ↔
      opcode = opcode' ∧ funct3 = funct3' ∧ funct12 = funct12' := by
  refine ⟨fun h => ?_, fun ⟨ho, h3, h12⟩ => ho ▸ h3 ▸ h12 ▸ rfl⟩
  obtain ⟨ho, h3, h12, -⟩ := fields_encodeI funct12 0 funct3 0 opcode
  obtain ⟨ho', h3', h12', -⟩ := fields_encodeI funct12' 0 funct3' 0 opcode'
  exact ⟨ho.symm.trans (h ▸ ho'), h3.symm.trans (h ▸ h3'), h12.symm.trans (h ▸ h12')⟩

theorem encodeR_key_inj {opcode' : BitVec 7} {funct3' : BitVec 3} {funct7' : BitVec 7} :
    encodeR funct7' 0 0 funct3' 0 opcode' = encodeR funct7 0 0 funct3 0 opcode ↔
      opcode = opcode' ∧ funct3 = funct3' ∧ funct7 = funct7' := by
  refine ⟨fun h => ?_, fun ⟨ho, h3, h7⟩ => ho ▸ h3 ▸ h7 ▸ rfl⟩
  obtain ⟨ho, h3, h7, -⟩ := fields_encodeR funct7 0 0 funct3 0 opcode
  obtain ⟨ho', h3', h7', -⟩ := fields_encodeR funct7' 0 0 funct3' 0 opcode'
  exact ⟨ho.symm.trans (h ▸ ho'), h3.symm.trans (h ▸ h3'), h7.symm.trans (h ▸ h7')⟩

theorem matches_opcode_iff :
    Key.matches { opcode } (decodeFields w) = true ↔ w &&& 0x0000007F#32 = encodeU 0 0 opcode := by
  obtain ⟨masked, -⟩ := and_mask w
  rw [masked, encodeU_key_inj]
  simp [Key.matches_iff]

theorem matches_funct3_iff :
    Key.matches { opcode, funct3 := some funct3 } (decodeFields w) = true ↔
      w &&& 0x0000707F#32 = encodeI 0 0 funct3 0 opcode := by
  obtain ⟨-, masked, -⟩ := and_mask w
  rw [masked, encodeI_key_inj]
  simp [Key.matches_iff]

theorem matches_funct7_iff :
    Key.matches { opcode, funct3 := some funct3, funct7 := some funct7 } (decodeFields w) = true ↔
      w &&& 0xFE00707F#32 = encodeR funct7 0 0 funct3 0 opcode := by
  obtain ⟨-, -, masked, -⟩ := and_mask w
  rw [masked, encodeR_key_inj]
  simp [Key.matches_iff]

theorem matches_funct12_iff :
    Key.matches { opcode, funct3 := some funct3, funct12 := some funct12 } (decodeFields w) = true ↔
      w &&& 0xFFF0707F#32 = encodeI funct12 0 funct3 0 opcode := by
  obtain ⟨-, -, -, masked⟩ := and_mask w
  rw [masked, encodeI_key_inj]
  simp [Key.matches_iff]

end MaskAndValue

theorem matches_iff_and_mask (op : Op) (w : Word) :
    op.key.matches (decodeFields w) = true ↔ w &&& op.mask = op.matchValue := by
  cases op
  case lui | auipc | jal => exact matches_opcode_iff
  case slli | srli | srai | add | sub | sll | slt | sltu | xor | srl | sra | or | and | mul | mulh | mulhsu | mulhu |
      div | divu | rem | remu => exact matches_funct7_iff
  case ecall | ebreak => exact matches_funct12_iff
  all_goals exact matches_funct3_iff

/-- The columns of the table are those of `Op.ext`, `Op.mask` and `Op.matchValue`. -/
theorem matchTable_columns : ∀ row ∈ matchTableA ++ matchTableB,
    row.1.ext = row.2.1 ∧ row.1.mask = row.2.2.1 ∧ row.1.matchValue = row.2.2.2 := by decide

theorem matchTable_complete : ∀ op ∈ allOps, ∃ row ∈ matchTableA ++ matchTableB, row.1 = op := by decide

/-- Settles O31: each row holds the mask and the value of its behavior's key, and two keys are apart (`op_unique`). -/
theorem matchIsMaskAndValue : Obligations.MatchIsMaskAndValue := by
  refine ⟨fun op => matchTable_complete op (mem_allOps op), fun row hrow => ?_, fun w op op' => op_unique⟩
  obtain ⟨ext, mask, value⟩ := matchTable_columns row hrow
  exact ⟨ext, fun w => mask ▸ value ▸ matches_iff_and_mask row.1 w⟩

end Sys2Proof
end

section
/-! PROOFS. Fields and dispatch (spec/30_encoding.md R80 to R97): the fields of a word as numbers, dispatch by the
number of matches, and the words that match nothing. -/

namespace Sys2Proof

open Machine

/-! ### The fields of every word as numbers (R82, R84 to R89) -/

theorem toNat_extractLsb (w : Word) (hi lo : Nat) :
    (w.extractLsb hi lo).toNat = w.toNat / 2 ^ lo % 2 ^ (hi - lo + 1) := by
  rw [BitVec.extractLsb_toNat, Nat.shiftRight_eq_div_pow]

theorem toNat_append {m n : Nat} (a : BitVec m) (b : BitVec n) : (a ++ b).toNat = a.toNat * 2 ^ n + b.toNat := by
  rw [BitVec.toNat_append, ← Nat.shiftLeft_add_eq_or_of_lt b.isLt, Nat.shiftLeft_eq]

section Immediates

variable (w : Word)

theorem toNat_immI : (decodeFields w).immI.toNat = w.toNat / 2 ^ 20 := by
  have := w.isLt
  simp only [decodeFields, toNat_extractLsb]
  omega

theorem toNat_immS : (decodeFields w).immS.toNat = w.toNat / 2 ^ 25 * 2 ^ 5 + w.toNat / 2 ^ 7 % 2 ^ 5 := by
  have := w.isLt
  simp only [decodeFields, toNat_append, toNat_extractLsb]
  omega

theorem toNat_immB : (decodeFields w).immB.toNat = w.toNat / 2 ^ 31 * 2 ^ 12 + w.toNat / 2 ^ 7 % 2 * 2 ^ 11 +
    w.toNat / 2 ^ 25 % 2 ^ 6 * 2 ^ 5 + w.toNat / 2 ^ 8 % 2 ^ 4 * 2 := by
  have := w.isLt
  simp only [decodeFields, toNat_append, toNat_extractLsb, BitVec.toNat_ofNat]
  omega

theorem toNat_immJ : (decodeFields w).immJ.toNat = w.toNat / 2 ^ 31 * 2 ^ 20 + w.toNat / 2 ^ 12 % 2 ^ 8 * 2 ^ 12 +
    w.toNat / 2 ^ 20 % 2 * 2 ^ 11 + w.toNat / 2 ^ 21 % 2 ^ 10 * 2 := by
  have := w.isLt
  simp only [decodeFields, toNat_append, toNat_extractLsb, BitVec.toNat_ofNat]
  omega

theorem toNat_upperImmediate_immU : (upperImmediate (decodeFields w).immU).toNat = w.toNat / 2 ^ 12 * 2 ^ 12 := by
  have := w.isLt
  simp only [decodeFields, upperImmediate, toNat_append, toNat_extractLsb, BitVec.toNat_ofNat]
  omega

variable {w}

/-- The signed value of an immediate whose top bit is bit 31 of the word. -/
theorem toInt_sext_of_top {n m : Nat} {v : BitVec (n + 1)} (h : n < 32) (value : v.toNat = m)
    (top : 2 ^ n ≤ m ↔ 2 ^ 31 ≤ w.toNat) : (sext v).toInt = m - if 2 ^ 31 ≤ w.toNat then 2 ^ (n + 1) else 0 := by
  have half : 2 * v.toNat < 2 ^ (n + 1) ↔ ¬2 ^ 31 ≤ w.toNat := by rw [← top, value, pow_succ]; omega
  rw [toInt_sext v h, BitVec.toInt_eq_toNat_cond, ite_cond_congr (propext half), value]
  by_cases negative : 2 ^ 31 ≤ w.toNat
  · rw [if_neg (not_not_intro negative), if_pos negative]
    push_cast
    rfl
  · rw [if_pos negative, if_neg negative, Int.sub_zero]

end Immediates

/-- Settles O32: each field is a bit range of the word, and each immediate has bit 31 of the word as its sign. -/
theorem fieldsOfEveryWord : Obligations.FieldsOfEveryWord := by
  intro w f n sign
  have lt : n < 2 ^ 32 := w.isLt
  have immI := toInt_sext_of_top (w := w) (n := 11) (by decide) (toNat_immI w) (by omega)
  have immS := toInt_sext_of_top (w := w) (n := 11) (by decide) (toNat_immS w) (by omega)
  have immB := toInt_sext_of_top (w := w) (n := 12) (by decide) (toNat_immB w) (by omega)
  have immJ := toInt_sext_of_top (w := w) (n := 20) (by decide) (toNat_immJ w) (by omega)
  have funct7 : f.funct7.toNat = n / 2 ^ 25 % 2 ^ 7 := toNat_extractLsb w 31 25
  have opcode : f.opcode.toNat = n / 2 ^ 0 % 2 ^ 7 := toNat_extractLsb w 6 0
  refine ⟨⟨by omega, toNat_extractLsb w 11 7, toNat_extractLsb w 14 12, toNat_extractLsb w 19 15,
    toNat_extractLsb w 24 20, by omega, toNat_immI w, rfl⟩, immI, immS, immB, toNat_upperImmediate_immU w, immJ⟩

/-! ### Dispatch by the number of matches (R94, R95) -/

section Dispatch

variable {exts : List Ext} {w : Word}

theorem dispatch_of_length_zero (h : (matching exts w).length = 0) : dispatch exts w = .unimplemented := by
  rw [dispatch, List.length_eq_zero_iff.1 h]

theorem dispatch_of_singleton {op : Op} (h : matching exts w = [op]) : dispatch exts w = .found op := by
  rw [dispatch, h]

theorem dispatch_of_two_le (h : 2 ≤ (matching exts w).length) : dispatch exts w = .conflict := by
  rw [dispatch]
  split
  · next unmatched => simp [unmatched] at h
  · next op one => simp [one] at h
  · rfl

theorem dispatch_of_no_match (h : ∀ op : Op, op.key.matches (decodeFields w) = false) :
    dispatch exts w = .unimplemented :=
  dispatch_of_length_zero (List.length_eq_zero_iff.2 (List.filter_eq_nil_iff.2 fun op _ => by simp [h op]))

/-- A matching behavior is found as often as its extension is loaded. -/
theorem length_matching {op : Op} (h : op.key.matches (decodeFields w) = true) :
    (matching exts w).length = exts.count op.ext := by
  rw [matching_of_matches h, List.length_replicate]

end Dispatch

/-- Settles O29: the matches of a word that a behavior matches are that behavior, once for each load of its
extension. -/
theorem dispatchCountsLoads : Obligations.DispatchCountsLoads := by
  intro exts w
  refine ⟨fun op h => ⟨fun never => ?_, dispatch_of_matches h, fun often => ?_⟩, dispatch_of_no_match⟩
  · exact dispatch_of_length_zero ((length_matching h).trans never)
  · exact dispatch_of_two_le (often.trans_eq (length_matching h).symm)

/-! ### The words that match nothing (R80, R97) -/

section FieldsOfMatch

/-! What is known of a behavior bounds the fields of the words it matches: a value that each such key
demands of a field is the value of that field. -/

variable {op : Op} {f : DecodedFields} (h : op.key.matches f = true) {C : Op → Prop} (known : C op)
include h known

theorem funct3_of_matches {P : BitVec 3 → Prop} (keys : ∀ op ∈ allOps, C op → ∃ v ∈ op.key.funct3, P v) :
    P f.funct3 := by
  obtain ⟨-, funct3, -⟩ := Key.matches_iff.1 h
  obtain ⟨v, hv, hP⟩ := keys op (mem_allOps op) known
  exact funct3 v hv ▸ hP

theorem funct7_of_matches {P : BitVec 7 → Prop} (keys : ∀ op ∈ allOps, C op → ∃ v ∈ op.key.funct7, P v) :
    P f.funct7 := by
  obtain ⟨-, -, funct7, -⟩ := Key.matches_iff.1 h
  obtain ⟨v, hv, hP⟩ := keys op (mem_allOps op) known
  exact funct7 v hv ▸ hP

end FieldsOfMatch

theorem extractLsb_opcode (w : Word) : (decodeFields w).opcode.extractLsb 1 0 = w.extractLsb 1 0 := by
  simp [decodeFields, BitVec.extractLsb]

theorem key_opcode_used : ∀ op ∈ allOps, op.key.opcode ∈ [0b0000011#7, 0b0001111#7, 0b0010011#7, 0b0010111#7,
    0b0100011#7, 0b0110011#7, 0b0110111#7, 0b1100011#7, 0b1100111#7, 0b1101111#7, 0b1110011#7] := by decide

theorem key_system : ∀ op ∈ allOps, op.key.opcode = 0b1110011#7 → op = .ecall ∨ op = .ebreak := by decide

/-- Every key's opcode ends in 11: all instructions are 4 bytes long (R80). -/
theorem key_lowBits : ∀ op ∈ allOps, op.key.opcode.extractLsb 1 0 = 3#2 := by decide

/-- Settles O33: where a behavior matched, what its key can demand, given the fields already known,
contradicts each kind of illegal word. -/
theorem illegalWordsMatchNothing : Obligations.IllegalWordsMatchNothing := by
  intro exts w f illegal
  refine dispatch_of_no_match fun op => Bool.eq_false_iff.2 fun h => ?_
  obtain ⟨opcode, funct3, funct7, funct12⟩ := Key.matches_iff.1 h
  have low : w.extractLsb 1 0 = op.key.opcode.extractLsb 1 0 := by rw [opcode, extractLsb_opcode]
  simp only [f, ← opcode, low] at illegal
  rcases illegal with bad | ⟨ho, bad⟩ | ⟨ho, bad⟩ | ⟨ho, bad⟩ | ⟨ho, bad⟩ | ⟨ho, bad⟩ | ⟨ho, h7, bad⟩ |
    ⟨ho, h3, bad⟩ | ⟨ho, h3, bad⟩ | ⟨ho, bad⟩ | ⟨ho, bad⟩ | ⟨ho, bad⟩ | bad
  · exact bad (key_opcode_used op (mem_allOps op))
  · exact bad (funct3_of_matches (C := (·.key.opcode = 0b1100111#7)) (P := (· = 0#3)) h ho (by decide))
  · exact funct3_of_matches (C := (·.key.opcode = 0b1100011#7)) (P := (· ∉ [2#3, 3#3])) h ho (by decide) bad
  · exact funct3_of_matches (C := (·.key.opcode = 0b0000011#7)) (P := (· ∉ [3#3, 6#3, 7#3])) h ho (by decide) bad
  · exact bad (funct3_of_matches (C := (·.key.opcode = 0b0100011#7)) (P := (· ∈ [0#3, 1#3, 2#3])) h ho (by decide))
  · exact bad (funct7_of_matches (C := (·.key.opcode = 0b0110011#7)) (P := (· ∈ [0#7, 32#7, 1#7])) h ho (by decide))
  · exact bad (funct3_of_matches (C := fun op => op.key.opcode = 0b0110011#7 ∧ ∀ v ∈ op.key.funct7, v = 32#7)
      (P := (· ∈ [0#3, 5#3])) h ⟨ho, h7 ▸ funct7⟩ (by decide))
  · exact bad (funct7_of_matches (C := fun op => op.key.opcode = 0b0010011#7 ∧ ∀ v ∈ op.key.funct3, v = 1#3)
      (P := (· = 0#7)) h ⟨ho, h3 ▸ funct3⟩ (by decide))
  · exact bad (funct7_of_matches (C := fun op => op.key.opcode = 0b0010011#7 ∧ ∀ v ∈ op.key.funct3, v = 5#3)
      (P := (· ∈ [0#7, 32#7])) h ⟨ho, h3 ▸ funct3⟩ (by decide))
  · exact bad (funct3_of_matches (C := (·.key.opcode = 0b0001111#7)) (P := (· = 0#3)) h ho (by decide))
  · exact bad (funct3_of_matches (C := (·.key.opcode = 0b1110011#7)) (P := (· = 0#3)) h ho (by decide))
  · obtain rfl | rfl := key_system op (mem_allOps op) ho
    · exact bad (funct12 _ rfl ▸ by decide)
    · exact bad (funct12 _ rfl ▸ by decide)
  · exact bad (key_lowBits op (mem_allOps op))

end Sys2Proof
end

section
/-! PROOFS. The step (spec/30_encoding.md R81, R95, R96): its order, its decoded instruction, and that nothing
refuses. -/

namespace Sys2Proof.Machine

variable {s t : State}

/-! ### The instruction at the pc (R81, R95) -/

theorem fetch_eq_error (h : ¬s.pc.toNat + 4 ≤ s.memSize) : s.fetch = .error (.bounds .fetch s.pc.toNat 4) :=
  if_neg (mt s.inBounds_iff.1 h)

/-- The fetched word is the four bytes at the pc, in the order of `State.wordAtPc`. -/
theorem fetch_eq_wordAtPc (h : s.pc.toNat + 4 ≤ s.memSize) : s.fetch = .ok s.wordAtPc :=
  fetch_ok.2 ⟨h, (ofBytes_four _ _ _ _).symm⟩

theorem nextInstr_of_fetch_error {f : Fault} (h : s.fetch = .error f) : s.nextInstr = .error f := by
  rw [State.nextInstr, h]; rfl

theorem nextInstr_of_inBounds (h : s.pc.toNat + 4 ≤ s.memSize) : s.nextInstr = s.select s.wordAtPc := by
  rw [State.nextInstr, fetch_eq_wordAtPc h]; rfl

/-! ### What a step does, by its instruction (R96) -/

theorem step_of_halt (h : s.halt = true) : step s = .next s := if_pos h

theorem step_of_nextInstr {i : Instr} (running : s.halt = false) (found : s.nextInstr = .ok i) :
    step s = clampOutcome (exec i s) := by
  rw [step, running, found]; rfl

theorem stepCommand_of_next (h : step s = .next t) : s.stepCommand = (t, .ok) := by rw [State.stepCommand, h]

theorem stepCommand_of_fault {f : Fault} (h : step s = .fault f) : s.stepCommand = (s.afterError, .error f) := by
  rw [State.stepCommand, h]

/-- A step without an instruction to execute ends in the error of the fetch or of dispatch, and changes nothing. -/
theorem stepFailsUnchanged_of_nextInstr {f : Fault} (running : s.halt = false) (noInstr : s.nextInstr = .error f) :
    StepFailsUnchanged s f := by
  have fault : step s = .fault f := by rw [step, running, noInstr]; rfl
  have unchanged : s.afterError = s := by rw [State.afterError, noInstr]
  exact ⟨fault, by rw [stepCommand_of_fault fault, unchanged]⟩

/-- Settles O27: the halt test, the fetch's bound, the number of matches, and exec with the clamp after it. -/
theorem stepInOrder : Obligations.StepInOrder := by
  intro s
  refine ⟨fun halted => ?_, fun running outside => ?_, fun running inside => ?_⟩
  · have same := step_of_halt halted
    exact ⟨same, stepCommand_of_next same⟩
  · exact stepFailsUnchanged_of_nextInstr running (nextInstr_of_fetch_error (fetch_eq_error outside))
  · have select := nextInstr_of_inBounds inside
    refine ⟨fun unmatched => ?_, fun several => ?_, fun op one => ?_⟩
    · rw [State.select, dispatch_of_length_zero unmatched] at select
      exact stepFailsUnchanged_of_nextInstr running select
    · rw [State.select, dispatch_of_two_le several] at select
      exact stepFailsUnchanged_of_nextInstr running select
    · rw [State.select, dispatch_of_singleton one] at select
      have executes := step_of_nextInstr running select
      refine ⟨fun t answers => ?_, fun f fault => ?_⟩
      · rw [answers] at executes
        exact ⟨executes, stepCommand_of_next executes⟩
      · rw [fault] at executes
        exact ⟨executes, stepCommand_of_fault executes⟩

/-- The clamp changes the stored x0 alone. -/
theorem clampX0_with_regs (t : State) : { t.clampX0 with regs := t.regs } = t := rfl

/-- Settles O28: the word at the pc is fetched, and what it decodes to is the instruction of the step. -/
theorem stepRunsDecodedInstruction : Obligations.StepRunsDecodedInstruction := by
  intro s i running inside decoded
  have found : s.nextInstr = .ok i := nextInstr_ok.2 ⟨_, fetch_eq_wordAtPc inside, decodeWith_ok.1 decoded⟩
  have executes := step_of_nextInstr running found
  refine ⟨executes, fun t ht => ⟨?_, t.readReg_clampX0, clampX0_with_regs t⟩⟩
  rw [executes, ht]
  rfl

/-! ### No refusal (60_exceptions.md R241) -/

theorem load_ne_refused (rd : Reg) (ea : Word) (n : Nat) (extend : Word → Word) (s : State) (r : Refusal) :
    load rd ea n extend s ≠ .refused r := by
  by_cases inside : ea.toNat + n ≤ s.memSize
  · obtain ⟨t, ht, -⟩ := load_writesReg s (rd := rd) (extend := extend) inside
    simp [ht]
  · simp [load_fault s inside]

theorem store_ne_refused (ea : Word) (n : Nat) (v : Word) (s : State) (r : Refusal) :
    store ea n v s ≠ .refused r := by
  by_cases inside : ea.toNat + n ≤ s.memSize
  · obtain ⟨t, ht, -⟩ := store_writesMem s (v := v) inside
    simp [ht]
  · simp [store_fault s inside]

theorem execEcall_ne_refused (rd rs1 : Reg) (s : State) (r : Refusal) : execEcall rd rs1 s ≠ .refused r := by
  unfold execEcall
  split
  · nofun
  · split <;> nofun

/-- Every instruction has a meaning: but for loads, stores and ecall, it answers a next state at once. -/
theorem exec_ne_refused (i : Instr) (s : State) (r : Refusal) : exec i s ≠ .refused r := by
  intro h
  cases i
  case lb | lh | lw | lbu | lhu => exact load_ne_refused _ _ _ _ _ _ h
  case sb | sh | sw => exact store_ne_refused _ _ _ _ _ h
  case ecall => exact execEcall_ne_refused _ _ _ _ h
  all_goals cases h

/-- Settles O40: only exec could refuse, and it does not. -/
theorem stepNeverRefuses : Obligations.StepNeverRefuses := by
  intro s r
  unfold step
  split
  · nofun
  · split
    · nofun
    · next i _ =>
      cases outcome : exec i s with
      | next t => nofun
      | fault f => nofun
      | refused r => exact absurd outcome (exec_ne_refused i s r)

end Sys2Proof.Machine

namespace Sys2Proof

theorem decode_of_encode_eq {i : Instr} {w : Word} (wf : i.wellFormed = true) (word : encode i = w) :
    decode w = some i :=
  word ▸ decode_encode wf

/-- Settles O36: each word is evaluated to be the encoding of its instruction, which it therefore decodes to. -/
theorem writtenOutWordsDecode : Obligations.WrittenOutWordsDecode := by
  refine ⟨?_, ?_, ?_, ?_, ?_, ?_, ?_, ?_, ?_, ?_, ?_, ?_, ?_⟩
  all_goals exact decode_of_encode_eq (by decide) (by decide)

end Sys2Proof
end

section
/-! PROOFS. The pseudo-instructions (spec/30_encoding.md R101): what their expansions leave in the state. -/

namespace Sys2Proof.Machine

variable {s t u : State} {rd : Reg} {v v' p p' : Word} {offset : BitVec 13}

/-! ### Effects in sequence -/

theorem SameHaltSink.trans (h : SameHaltSink s t) (h' : SameHaltSink t u) : SameHaltSink s u :=
  ⟨h'.1.trans h.1, h'.2.trans h.2⟩

theorem SameConfig.trans (h : SameConfig s t) (h' : SameConfig t u) : SameConfig s u :=
  ⟨h'.memSize.trans h.memSize, h'.extList.trans h.extList, h'.storeDraws.trans h.storeDraws⟩

theorem SameMem.trans (h : SameMem s t) (h' : SameMem t u) : SameMem s u := fun a => (h' a).trans (h a)

/-- The register that was written reads as the value written. -/
theorem WritesReg.readReg (h : WritesReg s t rd v p) (hrd : rd ≠ 0) : t.readReg rd = v := by
  rw [h.regs rd, if_neg hrd, if_pos rfl]

/-- The value written to x0 does not count. -/
theorem WritesReg.congr_value (h : WritesReg s t rd v p) (value : rd ≠ 0 → v = v') : WritesReg s t rd v' p where
  regs r := by
    rw [h.regs r]
    split_ifs with zero same
    · rfl
    · exact value (same ▸ zero)
    · rfl
  pc := h.pc
  mem := h.mem
  haltSink := h.haltSink
  config := h.config

/-- A write to x0 leaves only the pc changed. -/
theorem WritesReg.writesPc (h : WritesReg s t 0 v p) : WritesPc s t p where
  regs r := by
    rw [h.regs r]
    split_ifs with zero
    · rw [zero, State.readReg_zero]
    · rfl
  pc := h.pc
  mem := h.mem
  haltSink := h.haltSink
  config := h.config

/-- Of two writes to one register the second one counts. -/
theorem WritesReg.trans (h : WritesReg s t rd v p) (h' : WritesReg t u rd v' p') : WritesReg s u rd v' p' where
  regs r := by
    rw [h'.regs r, h.regs r]
    split_ifs <;> rfl
  pc := h'.pc
  mem := h.mem.trans h'.mem
  haltSink := h.haltSink.trans h'.haltSink
  config := h.config.trans h'.config

theorem WritesReg.trans_writesPc (h : WritesReg s t rd v p) (h' : WritesPc t u p') : WritesReg s u rd v p' where
  regs r := (h'.regs r).trans (h.regs r)
  pc := h'.pc
  mem := h.mem.trans h'.mem
  haltSink := h.haltSink.trans h'.haltSink
  config := h.config.trans h'.config

theorem execAll_singleton (i : Instr) (s : State) : execAll [i] s = exec i s := by
  rw [execAll]
  cases exec i s <;> rfl

theorem execAll_cons_of_next {i : Instr} (h : exec i s = .next t) (is : List Instr) :
    execAll (i :: is) s = execAll is t := by
  rw [execAll, h]

/-- An expansion of one computational instruction writes its value. -/
theorem execAll_of_retire {i : Instr} (h : exec i s = retire rd v s) (value : v = v') :
    ∃ t, execAll [i] s = .next t ∧ WritesReg s t rd v' (s.pc + 4#32) := by
  rw [execAll_singleton, h, ← value]
  exact retire_writesReg s rd v

/-! ### A constant in two parts (`hi` and `lo` of R101) -/

/-- Adding the sign-extended low part to the high part gives the constant back: `hi` is rounded so that it does. -/
theorem upperImmediate_add_sext (v : Word) : upperImmediate (highPart v) + sext (lowPart v) = v := by
  have low : (lowPart v).toNat = v.toNat % 2 ^ 12 := by simp [lowPart]
  have ext := toNat_sext (lowPart v) (by decide)
  have high : (upperImmediate (highPart v)).toNat = (v - sext (lowPart v)).toNat / 2 ^ 12 % 2 ^ 20 * 2 ^ 12 := by
    rw [upperImmediate, highPart, toNat_append, BitVec.extractLsb'_toNat, Nat.shiftRight_eq_div_pow,
      BitVec.toNat_ofNat, Nat.zero_mod, Nat.add_zero]
  apply BitVec.eq_of_toNat_eq
  rw [BitVec.toNat_add, high, BitVec.toNat_sub]
  split at ext <;> omega

/-- The upper-immediate instruction and the addi of a two-part constant leave it in rd, added to what the first
one adds its immediate to. -/
theorem execAll_upper_addi {i : Instr} {base : Word}
    (h : exec i s = retire rd (base + upperImmediate (highPart v)) s) :
    ∃ t, execAll [i, .addi rd rd (lowPart v)] s = .next t ∧ WritesReg s t rd (base + v) (s.pc + 8#32) := by
  obtain ⟨t, upper, effect⟩ := retire_writesReg s rd (base + upperImmediate (highPart v))
  obtain ⟨u, added, effect'⟩ := retire_writesReg t rd (t.readReg rd + sext (lowPart v))
  rw [execAll_cons_of_next (h.trans upper), execAll_singleton]
  refine ⟨u, added, ?_⟩
  rw [effect.pc, BitVec.add_assoc] at effect'
  refine (effect.trans effect').congr_value fun hrd => ?_
  rw [effect.readReg hrd, BitVec.add_assoc, upperImmediate_add_sext]

/-- Settles O54: a constant that fits in 12 bits is one addi from x0, any other is `hi` and `lo`. -/
theorem loadImmediateExpansion : Obligations.LoadImmediateExpansion := by
  intro rd imm s
  by_cases fits : imm = sext (lowPart imm)
  · have expand : (Pseudo.li rd imm).expand = [.addi rd 0 (lowPart imm)] := if_pos fits
    have value : s.readReg 0 + sext (lowPart imm) = imm := by rw [State.readReg_zero, ← fits, BitVec.zero_add]
    rw [expand]
    exact execAll_of_retire rfl value
  · have expand : (Pseudo.li rd imm).expand = [.lui rd (highPart imm), .addi rd rd (lowPart imm)] := if_neg fits
    have lui : exec (.lui rd (highPart imm)) s = retire rd (0#32 + upperImmediate (highPart imm)) s := by
      rw [BitVec.zero_add]; rfl
    have both := execAll_upper_addi lui
    rw [BitVec.zero_add] at both
    rw [expand]
    exact both

/-! ### pc-relative addresses -/

theorem wrap32_add_toInt (a b : Word) : wrap32 ((a.toNat : Int) + b.toInt) = a + b := by
  rw [wrap32_add_sext a b (by decide), sext, BitVec.signExtend_eq]

/-- Clearing bit 0 of a target (R158) rounds it down to an even number. -/
theorem and_clear_bit0 (a : Word) : a &&& 0xFFFFFFFE#32 = BitVec.ofNat 32 (2 * (a.toNat / 2)) := by
  have halved : a &&& 0xFFFFFFFE#32 = (a >>> 1) <<< 1 := by
    apply BitVec.eq_of_getLsbD_eq
    intro i hi
    rw [BitVec.getLsbD_and, BitVec.getLsbD_shiftLeft, BitVec.getLsbD_ushiftRight]
    interval_cases i <;> simp
  rw [halved, shiftLeft_eq_mul, BitVec.toNat_ushiftRight, Nat.shiftRight_eq_div_pow, pow_one, Nat.mul_comm]

/-- auipc and a jalr through its register go to the pc-relative address; the jalr links after both. -/
theorem execAll_auipc_jalr (s : State) (link : Reg) (offset : Word) (hrd : rd ≠ 0) :
    ∃ t u, execAll [.auipc rd (highPart offset), .jalr link rd (lowPart offset)] s = .next u ∧
      WritesReg s t rd (s.pc + upperImmediate (highPart offset)) (s.pc + 4#32) ∧
      WritesReg t u link (s.pc + 8#32) ((s.pc + offset) &&& 0xFFFFFFFE#32) := by
  obtain ⟨t, upper, effect⟩ := retire_writesReg s rd (s.pc + upperImmediate (highPart offset))
  obtain ⟨u, jumped, effect'⟩ := jump_writesReg t link ((t.readReg rd + sext (lowPart offset)) &&& 0xFFFFFFFE#32)
  refine ⟨t, u, ?_, effect, ?_⟩
  · rw [execAll_cons_of_next (i := .auipc rd (highPart offset)) upper, execAll_singleton]
    exact jumped
  · rwa [effect.readReg hrd, effect.pc, BitVec.add_assoc, BitVec.add_assoc, upperImmediate_add_sext] at effect'

/-- Settles O55: call's jalr overwrites auipc's register with the link, tail's writes x0, and la's addi adds. -/
theorem pcRelativeExpansions : Obligations.PcRelativeExpansions := by
  intro rd offset s address target
  have address_eq : address = s.pc + offset := wrap32_add_toInt s.pc offset
  have target_eq : target = (s.pc + offset) &&& 0xFFFFFFFE#32 := by rw [and_clear_bit0, ← address_eq]
  rw [target_eq, address_eq]
  refine ⟨?_, ?_, execAll_upper_addi rfl⟩
  · obtain ⟨t, u, done, upper, jump⟩ := execAll_auipc_jalr s (rd := 1) 1 offset (by decide)
    exact ⟨u, done, upper.trans jump⟩
  · obtain ⟨t, u, done, upper, jump⟩ := execAll_auipc_jalr s (rd := 6) 0 offset (by decide)
    exact ⟨u, _, done, upper.trans_writesPc jump.writesPc⟩

/-! ### One-instruction expansions -/

/-- An expansion of one branch goes by its offset when its condition holds, and by 4 otherwise. -/
theorem execAll_of_branch {i : Instr} {taken taken' : Bool} (h : exec i s = branch taken offset s)
    (condition : taken = taken') :
    ∃ t, execAll [i] s = .next t ∧
      WritesPc s t (wrap32 ((s.pc.toNat : Int) + if taken' then offset.toInt else 4)) := by
  have target : wrap32 ((s.pc.toNat : Int) + if taken' then offset.toInt else 4) =
      if taken then s.pc + sext offset else s.pc + 4#32 := by
    rw [← condition]
    cases taken
    · exact wrap32_add s.pc 4#32
    · exact wrap32_add_sext s.pc offset (by decide)
  rw [execAll_singleton, h, target]
  exact branch_writesPc s taken offset

theorem signedLess_eq (a b : Word) : signedLess a b = decide (a.toInt < b.toInt) := rfl

theorem unsignedLess_eq (a b : Word) : unsignedLess a b = decide (a.toNat < b.toNat) := rfl

theorem not_signedLess (a b : Word) : (!signedLess a b) = decide (b.toInt ≤ a.toInt) := by
  rw [signedLess_eq, ← decide_not, decide_eq_decide, Int.not_lt]

theorem not_unsignedLess (a b : Word) : (!unsignedLess a b) = decide (b.toNat ≤ a.toNat) := by
  rw [unsignedLess_eq, ← decide_not, decide_eq_decide, Nat.not_lt]

/-- Zero is the one pattern whose two views are both zero. -/
theorem toInt_eq_zero_iff (a : Word) : a.toInt = 0 ↔ a.toNat = 0 := by
  rw [BitVec.toInt_eq_toNat_cond]
  have := a.isLt
  split <;> omega

theorem beq_zero (a : Word) : (a == 0#32) = decide (a.toInt = 0) := by
  rw [beq_eq_decide, decide_eq_decide, toInt_eq_zero_iff, ← BitVec.toNat_inj]
  rfl

theorem bne_zero (a : Word) : (a != 0#32) = decide (a.toInt ≠ 0) := by
  rw [bne, beq_zero, ← decide_not]

theorem unsignedLess_one (a : Word) : unsignedLess a 1#32 = decide (a.toInt = 0) := by
  rw [unsignedLess_eq, decide_eq_decide, toInt_eq_zero_iff]
  exact Nat.lt_one_iff

theorem zero_unsignedLess (a : Word) : unsignedLess 0#32 a = decide (a.toInt ≠ 0) := by
  rw [unsignedLess_eq, decide_eq_decide, ne_eq, toInt_eq_zero_iff]
  exact Nat.pos_iff_ne_zero

/-- Inverting every bit is negation less 1. -/
theorem xor_neg_one (a : Word) : a ^^^ sext (-1 : BitVec 12) = wrap32 (-a.toInt - 1) := by
  have ones : sext (-1 : BitVec 12) = BitVec.allOnes 32 := by decide
  have lt := a.isLt
  apply BitVec.eq_of_toNat_eq
  rw [ones, BitVec.xor_allOnes, BitVec.toNat_not, wrap32, BitVec.toNat_ofInt, BitVec.toInt_eq_toNat_cond]
  split <;> omega

theorem zero_sub_eq (a : Word) : 0#32 - a = wrap32 (-a.toInt) := by
  apply BitVec.eq_of_toInt_eq
  rw [BitVec.zero_sub, toInt_wrap32, BitVec.toInt_neg]

/-- Settles O56: each expansion is one computational instruction or one branch, and what is left is that its value
or its condition is the stated one. -/
theorem shortExpansions : Obligations.ShortExpansions := by
  intro rd rs rt offset s a b writes goes
  refine ⟨?_, ?_, ?_, ?_, ?_, ?_, ?_, ?_, ?_, ?_, ?_, ?_, ?_, ?_, ?_, ?_, ?_, ?_⟩
  · obtain ⟨t, done, effect⟩ := execAll_of_retire (i := .addi 0 0 0) (s := s) rfl rfl
    exact ⟨t, done, effect.writesPc⟩
  · exact execAll_of_retire (i := .addi rd rs 0) rfl (BitVec.add_zero a)
  · exact execAll_of_retire (i := .xori rd rs (-1)) rfl (xor_neg_one a)
  · exact execAll_of_retire (i := .sub rd 0 rs) rfl (zero_sub_eq a)
  · exact execAll_of_retire (i := .sltiu rd rs 1) rfl (congrArg bool2p (unsignedLess_one a))
  · exact execAll_of_retire (i := .sltu rd 0 rs) rfl (congrArg bool2p (zero_unsignedLess a))
  · exact execAll_of_retire (i := .slt rd rs 0) rfl rfl
  · exact execAll_of_retire (i := .slt rd 0 rs) rfl rfl
  · exact execAll_of_branch (i := .beq rs 0 offset) rfl (beq_zero a)
  · exact execAll_of_branch (i := .bne rs 0 offset) rfl (bne_zero a)
  · exact execAll_of_branch (i := .bge 0 rs offset) rfl (not_signedLess 0#32 a)
  · exact execAll_of_branch (i := .bge rs 0 offset) rfl (not_signedLess a 0#32)
  · exact execAll_of_branch (i := .blt rs 0 offset) rfl rfl
  · exact execAll_of_branch (i := .blt 0 rs offset) rfl rfl
  · exact execAll_of_branch (i := .blt rt rs offset) rfl rfl
  · exact execAll_of_branch (i := .bge rt rs offset) rfl (not_signedLess b a)
  · exact execAll_of_branch (i := .bltu rt rs offset) rfl rfl
  · exact execAll_of_branch (i := .bgeu rt rs offset) rfl (not_unsignedLess b a)

end Sys2Proof.Machine
end

section
/-! PROOFS. Arithmetic, logic, shift and compare (spec/40_arith_logic_compare.md R120 to R139): each instruction
retires one value, which is the exact one of its rule. -/

namespace Sys2Proof.Machine

variable {i : Instr} {s : State} {rd : Reg} {v v' : Word}

/-- An instruction that retires a value completes and writes it. -/
theorem exec_of_retire (h : exec i s = retire rd v s) (value : v = v') :
    ∃ t, exec i s = .next t ∧ WritesReg s t rd v' (s.pc + 4#32) := by
  rw [h, ← value]
  exact retire_writesReg s rd v

/-- Settles O3: the three values are the exact sum and difference reduced modulo 2^32. -/
theorem addSubResults : Obligations.AddSubResults := by
  intro rd rs1 rs2 imm s
  refine ⟨?_, ?_, ?_⟩
  · exact exec_of_retire (i := .add rd rs1 rs2) rfl (wrap32_add _ _).symm
  · exact exec_of_retire (i := .addi rd rs1 imm) rfl (wrap32_add_sext _ imm (by decide)).symm
  · exact exec_of_retire (i := .sub rd rs1 rs2) rfl (wrap32_sub _ _).symm

/-! ### Bitwise instructions (R124 to R129) -/

/-- An instruction that retires a value writes a word with that value's bits. -/
theorem exec_of_retire_bits {bit : Nat → Bool} (h : exec i s = retire rd v s)
    (bits : ∀ k, k < 32 → v.getLsbD k = bit k) :
    ∃ t v, exec i s = .next t ∧ WritesReg s t rd v (s.pc + 4#32) ∧ ∀ k, k < 32 → v.getLsbD k = bit k := by
  obtain ⟨t, done, effect⟩ := exec_of_retire h rfl
  exact ⟨t, v, done, effect, bits⟩

/-- Settles O4: a bitwise operation acts on each bit alone, and `getLsbD_sext12` gives the immediate's bits. -/
theorem bitwiseResults : Obligations.BitwiseResults := by
  intro rd rs1 rs2 imm s a b immBit
  have immBits : ∀ k, k < 32 → (sext imm).getLsbD k = immBit k := fun k => getLsbD_sext12 imm
  refine ⟨?_, ?_, ?_, ?_, ?_, ?_⟩
  · exact exec_of_retire_bits (i := .xor rd rs1 rs2) rfl fun k _ => BitVec.getLsbD_xor
  · exact exec_of_retire_bits (i := .or rd rs1 rs2) rfl fun k _ => BitVec.getLsbD_or
  · exact exec_of_retire_bits (i := .and rd rs1 rs2) rfl fun k _ => BitVec.getLsbD_and
  · exact exec_of_retire_bits (i := .xori rd rs1 imm) rfl fun k hk => immBits k hk ▸ BitVec.getLsbD_xor
  · exact exec_of_retire_bits (i := .ori rd rs1 imm) rfl fun k hk => immBits k hk ▸ BitVec.getLsbD_or
  · exact exec_of_retire_bits (i := .andi rd rs1 imm) rfl fun k hk => immBits k hk ▸ BitVec.getLsbD_and

/-! ### Shifts (R130 to R135) -/

/-- Settles O5: shifting left multiplies and shifting right divides, by a power of two; the amount in a register
counts modulo 32 (`shiftAmount_eq`). -/
theorem logicalShiftResults : Obligations.LogicalShiftResults := by
  intro rd rs1 rs2 shamt s a k
  have amount : shiftAmount (s.readReg rs2) = k := shiftAmount_eq _
  refine ⟨?_, ?_, ?_, ?_⟩
  · exact exec_of_retire (i := .sll rd rs1 rs2) rfl (amount ▸ shiftLeft_eq_mul _ _)
  · exact exec_of_retire (i := .srl rd rs1 rs2) rfl (amount ▸ shiftRight_eq_div _ _)
  · exact exec_of_retire (i := .slli rd rs1 shamt) rfl (shiftLeft_eq_mul _ _)
  · exact exec_of_retire (i := .srli rd rs1 shamt) rfl (shiftRight_eq_div _ _)

/-- A power of two is positive, so `/` is floor division by it. -/
theorem sshiftRight_eq_fdiv (a : Word) (k : Nat) : a.sshiftRight k = wrap32 (Int.fdiv a.toInt (2 ^ k)) := by
  rw [sshiftRight_eq_div, Int.fdiv_eq_ediv_of_nonneg _ (by positivity)]

/-- Settles O6: an arithmetic right shift is floor division of the signed view. -/
theorem arithmeticShiftResults : Obligations.ArithmeticShiftResults := by
  intro rd rs1 rs2 shamt s
  refine ⟨?_, ?_⟩
  · exact exec_of_retire (i := .sra rd rs1 rs2) rfl (shiftAmount_eq _ ▸ sshiftRight_eq_fdiv _ _)
  · exact exec_of_retire (i := .srai rd rs1 shamt) rfl (sshiftRight_eq_fdiv _ _)

/-! ### Comparisons (R136 to R139) -/

theorem bool2p_signedLess (a b : Word) : bool2p (signedLess a b) = if a.toInt < b.toInt then 1#32 else 0#32 := by
  simp only [bool2p, signedLess_eq, decide_eq_true_eq]

theorem bool2p_unsignedLess (a b : Word) : bool2p (unsignedLess a b) = if a.toNat < b.toNat then 1#32 else 0#32 := by
  simp only [bool2p, unsignedLess_eq, decide_eq_true_eq]

/-- Settles O7: the extended immediate keeps its signed value (slti), and its pattern is that value reduced modulo
2^32 (sltiu). -/
theorem compareResults : Obligations.CompareResults := by
  intro rd rs1 rs2 imm s a b
  have signed : (sext imm).toInt = imm.toInt := toInt_sext imm (by decide)
  have pattern : wrap32 imm.toInt = sext imm := wrap32_toInt_sext imm (by decide)
  rw [pattern]
  refine ⟨?_, ?_, ?_, ?_⟩
  · exact exec_of_retire (i := .slt rd rs1 rs2) rfl (bool2p_signedLess _ _)
  · exact exec_of_retire (i := .slti rd rs1 imm) rfl (signed ▸ bool2p_signedLess _ _)
  · exact exec_of_retire (i := .sltu rd rs1 rs2) rfl (bool2p_unsignedLess _ _)
  · exact exec_of_retire (i := .sltiu rd rs1 imm) rfl (bool2p_unsignedLess _ _)

end Sys2Proof.Machine
end

section
/-! PROOFS. Control transfer (spec/41_control_transfer.md R150 to R158): each instruction is one branch or one jump,
whose condition and target are the exact ones of its rule. -/

namespace Sys2Proof.Machine

variable {i : Instr} {s : State}

/-! ### Branches (R151 to R156) -/

/-- An instruction that branches on a condition completes; it goes by its offset when the condition holds, and by 4
otherwise. -/
theorem exec_of_branch {taken : Bool} {offset : BitVec 13} {condition : Prop} [Decidable condition]
    (h : exec i s = branch taken offset s) (decides : taken = decide condition) :
    ∃ t, exec i s = .next t ∧ WritesPc s t
      (if condition then wrap32 ((s.pc.toNat : Int) + offset.toInt) else wrap32 ((s.pc.toNat : Int) + 4)) := by
  have goes := execAll_of_branch h decides
  simp only [execAll_singleton, decide_eq_true_eq] at goes
  by_cases met : condition
  · simpa only [if_pos met] using goes
  · simpa only [if_neg met] using goes

/-- Settles O8: each branch decides the condition of its rule; bne goes by the opposite of equality. -/
theorem branchResults : Obligations.BranchResults := by
  intro rs1 rs2 offset s a b taken next
  refine ⟨?_, ?_, ?_, ?_, ?_, ?_⟩
  · exact exec_of_branch (i := .beq rs1 rs2 offset) rfl (beq_eq_decide a b)
  · have differ : (a != b) = decide (¬a = b) := by rw [bne, beq_eq_decide, decide_not]
    rw [← ite_not]
    exact exec_of_branch (i := .bne rs1 rs2 offset) rfl differ
  · exact exec_of_branch (i := .blt rs1 rs2 offset) rfl (signedLess_eq a b)
  · exact exec_of_branch (i := .bge rs1 rs2 offset) rfl (not_signedLess a b)
  · exact exec_of_branch (i := .bltu rs1 rs2 offset) rfl (unsignedLess_eq a b)
  · exact exec_of_branch (i := .bgeu rs1 rs2 offset) rfl (not_unsignedLess a b)

/-! ### Jumps (R157, R158) -/

/-- An instruction that jumps completes, writes the link to rd and goes to its target. -/
theorem exec_of_jump {rd : Reg} {target target' : Word} (h : exec i s = jump rd target s)
    (destination : target = target') :
    ∃ t, exec i s = .next t ∧ WritesReg s t rd (wrap32 ((s.pc.toNat : Int) + 4)) target' := by
  have link : wrap32 ((s.pc.toNat : Int) + 4) = s.pc + 4#32 := wrap32_add s.pc 4#32
  rw [h, ← destination, link]
  exact jump_writesReg s rd target

/-- Settles O9: both targets are sums of the operands before the link is written, and jalr's mask rounds its sum down
to an even number (`and_clear_bit0`). -/
theorem jumpResults : Obligations.JumpResults := by
  intro rd rs1 offset imm s link sum
  have sum_eq : sum = s.readReg rs1 + sext imm := wrap32_add_sext _ imm (by decide)
  rw [sum_eq]
  refine ⟨?_, ?_⟩
  · exact exec_of_jump (i := .jal rd offset) rfl (wrap32_add_sext s.pc offset (by decide)).symm
  · exact exec_of_jump (i := .jalr rd rs1 imm) rfl (and_clear_bit0 _)

end Sys2Proof.Machine
end

section
/-! PROOFS. Upper immediates (spec/42_upper_immediate.md R170 to R172): the immediate with twelve zeros below as a
multiple of 2^12, which lui writes and auipc adds to its pc. -/

namespace Sys2Proof.Machine

theorem toNat_upperImmediate (imm20 : BitVec 20) : (upperImmediate imm20).toNat = imm20.toNat * 2 ^ 12 := by
  rw [upperImmediate, toNat_append, BitVec.toNat_ofNat, Nat.zero_mod, Nat.add_zero]

theorem upperImmediate_eq_ofNat (imm20 : BitVec 20) :
    upperImmediate imm20 = BitVec.ofNat 32 (imm20.toNat * 2 ^ 12) := by
  rw [← toNat_upperImmediate, BitVec.ofNat_toNat, BitVec.setWidth_eq]

/-- Settles O10: lui retires its immediate with twelve zeros below. -/
theorem luiResult : Obligations.LuiResult := by
  intro rd imm20 s
  exact exec_of_retire rfl (upperImmediate_eq_ofNat imm20)

/-- Settles O11: auipc retires the sum of its own pc and what lui would write. -/
theorem auipcResult : Obligations.AuipcResult := by
  intro rd imm20 s
  have sum : s.pc + upperImmediate imm20 = BitVec.ofNat 32 (s.pc.toNat + imm20.toNat * 2 ^ 12) := by
    rw [BitVec.ofNat_add, BitVec.ofNat_toNat, BitVec.setWidth_eq, upperImmediate_eq_ofNat]
  exact exec_of_retire rfl sum

end Sys2Proof.Machine
end

section
/-! PROOFS. Loads and stores (spec/43_load_store.md R180 to R188): each instruction is one load or one store at its
effective address, which completes in bounds; what a step that fails out of bounds leaves is the state that
`State.afterError` gives. -/

namespace Sys2Proof.Machine

variable {i : Instr} {s : State} {f : Fault} {ea : Word} {n : Nat}

/-- The effective address is the exact sum of base and displacement, modulo 2^32 (20_memory.md R60). -/
theorem State.wrap32_eq_effectiveAddress (s : State) (rs1 : Reg) (imm : BitVec 12) :
    wrap32 (((s.readReg rs1).toNat : Int) + imm.toInt) = s.effectiveAddress rs1 imm :=
  wrap32_add_sext _ imm (by decide)

/-! ### The state that a failing instruction leaves (60_exceptions.md R243) -/

/-- The step that executes a failing instruction ends in its error. -/
theorem stepCommand_of_exec_fault (fault : exec i s = .fault f) (running : s.halt = false)
    (found : s.nextInstr = .ok i) : s.stepCommand = (s.afterError, .error f) :=
  stepCommand_of_fault (by rw [step_of_nextInstr running found, fault]; rfl)

theorem State.afterError_of_not_store (found : s.nextInstr = .ok i) (notStore : storeParts s i = none) :
    s.afterError = s := by
  simp only [State.afterError, found, notStore]

theorem State.afterError_of_store {v : Word} (found : s.nextInstr = .ok i) (parts : storeParts s i = some (ea, n, v)) :
    s.afterError = if !s.inBounds ea n && s.inBounds ea 1 then s.tornStore ea n v else s := by
  simp only [State.afterError, found, parts]

theorem failsUnchanged_of_fault (fault : exec i s = .fault f) (same : s.nextInstr = .ok i → s.afterError = s) :
    FailsUnchanged i s f := by
  refine ⟨fault, fun running found => ?_⟩
  rw [stepCommand_of_exec_fault fault running found, same found]

/-! ### Loads (R181 to R185) -/

section Loads

variable {rd : Reg} {extend : Word → Word}

theorem setWidth_ofBytes_readBytes_one (m : Memory) (a : Nat) : (ofBytes (m.readBytes a 1)).setWidth 8 = m.read a := by
  have assembled : ofBytes (m.readBytes a 1) = (m.read a).setWidth 32 := ofBytes_one _
  rw [assembled, BitVec.setWidth_setWidth_of_le _ (by decide), BitVec.setWidth_eq]

theorem setWidth_ofBytes_readBytes_two (m : Memory) (a : Nat) :
    (ofBytes (m.readBytes a 2)).setWidth 16 = m.read (a + 1) ++ m.read a := by
  have assembled : ofBytes (m.readBytes a 2) = (m.read (a + 1) ++ m.read a).setWidth 32 := ofBytes_two _ _
  rw [assembled, BitVec.setWidth_setWidth_of_le _ (by decide), BitVec.setWidth_eq]

theorem ofBytes_readBytes_four (m : Memory) (a : Nat) :
    ofBytes (m.readBytes a 4) = m.read (a + 3) ++ m.read (a + 2) ++ m.read (a + 1) ++ m.read a :=
  ofBytes_four _ _ _ _

/-- An instruction that loads in bounds completes and writes the extended value. -/
theorem exec_of_load {v : Word} (h : exec i s = load rd ea n extend s) (inside : ea.toNat + n ≤ s.memSize)
    (value : extend (ofBytes (s.mem.readBytes ea.toNat n)) = v) :
    ∃ t, exec i s = .next t ∧ WritesReg s t rd v (s.pc + 4#32) := by
  rw [h, ← value]
  exact load_writesReg s inside

/-- An instruction that loads out of bounds fails, and its step leaves the state as it was. -/
theorem failsUnchanged_of_load (h : exec i s = load rd ea n extend s) (notStore : storeParts s i = none)
    (outside : ¬ea.toNat + n ≤ s.memSize) : FailsUnchanged i s (.bounds .load ea.toNat n) :=
  failsUnchanged_of_fault (h.trans (load_fault s outside)) fun found => State.afterError_of_not_store found notStore

end Loads

/-- Settles O12: the loaded bytes stand in the order of their addresses, and the extension narrows the word to them
again; a load that fails is no store, so nothing is torn. -/
theorem loadResults : Obligations.LoadResults := by
  intro rd rs1 imm s
  rw [s.wrap32_eq_effectiveAddress]
  intro ea b
  have byte : (ofBytes (s.mem.readBytes ea.toNat 1)).setWidth 8 = b 0 := setWidth_ofBytes_readBytes_one _ _
  have half : (ofBytes (s.mem.readBytes ea.toNat 2)).setWidth 16 = b 1 ++ b 0 := setWidth_ofBytes_readBytes_two _ _
  have word : ofBytes (s.mem.readBytes ea.toNat 4) = b 3 ++ b 2 ++ b 1 ++ b 0 := ofBytes_readBytes_four _ _
  refine ⟨fun inside => ⟨?_, ?_⟩, fun inside => ⟨?_, ?_⟩, fun inside => ?_,
    fun outside => ⟨?_, ?_⟩, fun outside => ⟨?_, ?_⟩, fun outside => ?_⟩
  · exact exec_of_load (i := .lb rd rs1 imm) rfl inside (congrArg sext byte)
  · exact exec_of_load (i := .lbu rd rs1 imm) rfl inside (congrArg zext byte)
  · exact exec_of_load (i := .lh rd rs1 imm) rfl inside (congrArg sext half)
  · exact exec_of_load (i := .lhu rd rs1 imm) rfl inside (congrArg zext half)
  · exact exec_of_load (i := .lw rd rs1 imm) rfl inside word
  · exact failsUnchanged_of_load (i := .lb rd rs1 imm) rfl rfl outside
  · exact failsUnchanged_of_load (i := .lbu rd rs1 imm) rfl rfl outside
  · exact failsUnchanged_of_load (i := .lh rd rs1 imm) rfl rfl outside
  · exact failsUnchanged_of_load (i := .lhu rd rs1 imm) rfl rfl outside
  · exact failsUnchanged_of_load (i := .lw rd rs1 imm) rfl rfl outside

/-! ### Stores (R186 to R188) -/

section Stores

variable {v : Word}

/-- A store that changed nothing is torn with every byte old. -/
theorem Torn.refl (s : State) (ea : Word) (n : Nat) (v : Word) : Torn s s ea n v where
  inside _ _ _ := .inl rfl
  outside _ _ := rfl
  regs _ := rfl
  pc := rfl
  haltSink := ⟨rfl, rfl⟩
  memSize := rfl
  extList := rfl

/-- Whatever the draws, a byte of the torn store is the old or the new one, and no other byte changes
(20_memory.md R53). -/
theorem torn_tornStore (s : State) (ea : Word) (n : Nat) (v : Word) : Torn s (s.tornStore ea n v) ea n v where
  inside k _ _ := by
    rw [State.read_tornStore]
    split
    · exact .inr (by rw [Nat.add_sub_cancel_left])
    · exact .inl rfl
  outside a ha := by rw [State.read_tornStore, if_neg (by omega)]
  regs := State.readReg_congr (s.tornStore_regs ea n v)
  pc := rfl
  haltSink := ⟨rfl, rfl⟩
  memSize := rfl
  extList := rfl

theorem torn_afterError (found : s.nextInstr = .ok i) (parts : storeParts s i = some (ea, n, v)) :
    Torn s s.afterError ea n v := by
  rw [State.afterError_of_store found parts]
  split
  · exact torn_tornStore s ea n v
  · exact .refl s ea n v

/-- A byte store is never partly in bounds, so it changes nothing when it fails. -/
theorem State.afterError_of_byteStore (found : s.nextInstr = .ok i) (parts : storeParts s i = some (ea, 1, v)) :
    s.afterError = s := by
  rw [State.afterError_of_store found parts, Bool.not_and_self]
  rfl

/-- An instruction that stores in bounds completes and writes its bytes. -/
theorem exec_of_store (h : exec i s = store ea n v s) (inside : ea.toNat + n ≤ s.memSize) :
    ∃ t, exec i s = .next t ∧ WritesMem s t ea n v := by
  rw [h]
  exact store_writesMem s inside

/-- An instruction that stores out of bounds fails, and its step may tear the store. -/
theorem failsTorn_of_store (h : exec i s = store ea n v s) (parts : storeParts s i = some (ea, n, v))
    (outside : ¬ea.toNat + n ≤ s.memSize) : FailsTorn i s (.bounds .store ea.toNat n) ea n v := by
  have fault := h.trans (store_fault s outside)
  exact ⟨fault, fun running found =>
    ⟨s.afterError, stepCommand_of_exec_fault fault running found, torn_afterError found parts⟩⟩

end Stores

/-- Settles O13: in bounds each store writes its bytes; out of bounds a halfword or a word may be torn, and a byte
store changes nothing. -/
theorem storeResults : Obligations.StoreResults := by
  intro rs1 rs2 imm s
  rw [s.wrap32_eq_effectiveAddress]
  intro ea v
  refine ⟨fun inside => ?_, fun inside => ?_, fun inside => ?_, fun outside => ?_, fun outside => ?_, fun outside => ?_⟩
  · exact exec_of_store (i := .sb rs1 rs2 imm) rfl inside
  · exact exec_of_store (i := .sh rs1 rs2 imm) rfl inside
  · exact exec_of_store (i := .sw rs1 rs2 imm) rfl inside
  · exact failsUnchanged_of_fault (i := .sb rs1 rs2 imm) (store_fault s outside) fun found =>
      State.afterError_of_byteStore found rfl
  · exact failsTorn_of_store (i := .sh rs1 rs2 imm) rfl rfl outside
  · exact failsTorn_of_store (i := .sw rs1 rs2 imm) rfl rfl outside

end Sys2Proof.Machine
end

section
/-! PROOFS. fence and ebreak (spec/44_misc.md R200 to R202): the pc alone, the halt flag alone, and what becomes of a
halted CORE under each of the host's commands. -/

namespace Sys2Proof.Machine

variable {s t : State}

/-! ### fence (R201) -/

theorem State.advance_writesPc (s : State) : WritesPc s s.advance (s.pc + 4#32) where
  regs := s.readReg_advance
  pc := s.advance_pc
  mem _ := rfl
  haltSink := ⟨rfl, rfl⟩
  config := ⟨rfl, rfl, rfl⟩

/-- Settles O16: fence is the advance of the pc by 4, modulo 2^32. -/
theorem fenceIsNoOp : Obligations.FenceIsNoOp := by
  intro rd rs1 imm s
  have next : wrap32 ((s.pc.toNat : Int) + 4) = s.pc + 4#32 := wrap32_add s.pc 4#32
  rw [next]
  exact ⟨s.advance, rfl, s.advance_writesPc⟩

/-! ### ebreak (R202) -/

theorem State.setHalt_halts (s : State) : Halts s s.setHalt where
  halt := s.setHalt_halt
  pc := s.setHalt_pc
  regs := s.readReg_setHalt
  mem _ := rfl
  sink := s.setHalt_sink
  config := ⟨rfl, rfl, rfl⟩

theorem stepCommand_of_halt (halted : s.halt = true) : s.stepCommand = (s, .ok) :=
  stepCommand_of_next (step_of_halt halted)

theorem run_of_halt (halted : s.halt = true) (k : Nat) : s.run k = (s, .ok) := by
  cases k with
  | zero => rfl
  | succ k => exact if_pos halted

/-- A halted CORE stays halted under every command but reset: a step or a run changes nothing, an image changes only
memory, and a read has no effect (R202, 60_exceptions.md R249). -/
theorem Performs.keeps_halt {c : Command} {r : Reply} (hp : Performs s c (t, r)) (halted : s.halt = true)
    (other : c ≠ .reset) : t.halt = true := by
  cases c with
  | reset => exact absurd rfl other
  | loadImage base bytes =>
    simp only [Performs] at hp
    split at hp
    · next ok =>
      obtain ⟨-, rfl⟩ := State.loadImage_eq_ok.1 ok
      cases hp; exact halted
    · cases hp; exact halted
  | step => cases hp; rwa [stepCommand_of_halt halted]
  | run maxSteps =>
    cases maxSteps with
    | some k => cases hp; rwa [run_of_halt halted]
    | none =>
      obtain ⟨u, e, ⟨k, ends, -⟩, same⟩ := hp
      rw [run_of_halt halted] at ends
      cases ends; cases same; exact halted
  | peek | readRegs | readPc | readHalt => cases hp; exact halted
  | readMem a =>
    simp only [Performs] at hp
    split at hp
    · cases hp; exact halted
    · cases hp; exact halted

/-- Settles O17: ebreak is `setHalt`; the state it leaves is halted, so a step returns it and a command that clears the
halt can only be reset (`Performs.keeps_halt`). -/
theorem ebreakHalts : Obligations.EbreakHalts := by
  intro rd rs1 s
  refine ⟨s.setHalt, rfl, s.setHalt_halts, step_of_halt s.setHalt_halt, fun c u r hp cleared => ?_⟩
  by_contra other
  have halted : u.halt = true := hp.keeps_halt s.setHalt_halt other
  rw [cleared] at halted
  cases halted

end Sys2Proof.Machine
end

section
/-! PROOFS. Multiply and divide (spec/45_multiply_divide.md R210 to R219): the exact products and quotients as the
machine operations on words, so that a high word is the upper half of a 64-bit product. -/

namespace Sys2Proof.Machine

/-! ### The low word of a product (R211) -/

theorem wrap32_mul_toInt (a b : Word) : wrap32 (a.toInt * b.toInt) = a * b := by
  rw [wrap32, BitVec.ofInt_mul, BitVec.ofInt_toInt, BitVec.ofInt_toInt]

theorem wrap32_mul_toNat (a b : Word) : wrap32 ((a.toNat : Int) * (b.toNat : Int)) = a * b := by
  rw [wrap32, BitVec.ofInt_mul, ← wrap32, ← wrap32, wrap32_toNat, wrap32_toNat]

/-! ### The high word of a product (R210, R212 to R214) -/

/-- `2 ^ 32` is positive, so `/` is floor division by it. -/
theorem highWord_eq_fdiv (product : Int) : highWord product = wrap32 (Int.fdiv product (2 ^ 32)) := by
  rw [highWord, Int.fdiv_eq_ediv_of_nonneg _ (by positivity)]

theorem highWord_natCast (n : Nat) : highWord n = BitVec.ofNat 32 (n / 2 ^ 32) :=
  BitVec.ofInt_natCast 32 (n / 2 ^ 32)

/-- The high word of an exact product is the upper half of its 64-bit two's complement. -/
theorem highWord_eq_extractLsb' (product : Int) : highWord product = (BitVec.ofInt 64 product).extractLsb' 32 32 := by
  apply BitVec.eq_of_toNat_eq
  rw [highWord, wrap32, BitVec.toNat_ofInt, BitVec.extractLsb'_toNat, BitVec.toNat_ofInt, Nat.shiftRight_eq_div_pow]
  omega

/-- The high word of a product of two views, from the 64-bit extensions that have those views. -/
theorem highWord_mul {x y : Int} {a b : BitVec 64} (left : BitVec.ofInt 64 x = a) (right : BitVec.ofInt 64 y = b) :
    highWord (x * y) = (a * b).extractLsb' 32 32 := by
  rw [highWord_eq_extractLsb', BitVec.ofInt_mul, left, right]

theorem ofInt64_toNat (a : Word) : BitVec.ofInt 64 (a.toNat : Int) = a.setWidth 64 := by
  rw [BitVec.ofInt_natCast, BitVec.ofNat_toNat]

/-- Settles O22: the low word of a product does not depend on the view, and the high words are floor divisions. -/
theorem multiplyResults : Obligations.MultiplyResults := by
  intro rd rs1 rs2 s a b
  refine ⟨?_, ?_, ?_⟩
  · obtain ⟨t, done, effect⟩ := exec_of_retire (i := .mul rd rs1 rs2) (s := s) rfl (wrap32_mul_toInt a b)
    exact ⟨t, a * b, done, effect, (wrap32_mul_toInt a b).symm, (wrap32_mul_toNat a b).symm⟩
  · exact exec_of_retire (i := .mulhu rd rs1 rs2) rfl (highWord_natCast (a.toNat * b.toNat))
  · exact exec_of_retire (i := .mulhsu rd rs1 rs2) rfl (highWord_eq_fdiv _)

/-- Settles O23: mulh retires the high word of the signed product. -/
theorem mulhResult : Obligations.MulhResult := by
  intro rd rs1 rs2 s
  exact exec_of_retire rfl (highWord_eq_fdiv _)

/-- Settles O24: extending an operand to 64 bits by its view keeps that view's value, and 64-bit multiplication is the
exact one modulo 2^64. -/
theorem highWordsAreUpperProductBits : Obligations.HighWordsAreUpperProductBits := by
  intro rd rs1 rs2 s a b
  refine ⟨?_, ?_, ?_⟩
  · exact exec_of_retire (i := .mulh rd rs1 rs2) rfl (highWord_mul rfl rfl)
  · exact exec_of_retire (i := .mulhu rd rs1 rs2) rfl (highWord_mul (ofInt64_toNat a) (ofInt64_toNat b))
  · exact exec_of_retire (i := .mulhsu rd rs1 rs2) rfl (highWord_mul rfl (ofInt64_toNat b))

/-! ### Quotients and remainders (R215 to R218) -/

/-- Settles O25: the truncated remainder is the dividend minus the divisor times the truncated quotient. -/
theorem divideResults : Obligations.DivideResults := by
  intro rd rs1 rs2 s a b
  have unsigned (n : Nat) : BitVec.ofNat 32 n = wrap32 (n : Int) := (BitVec.ofInt_natCast 32 n).symm
  rw [← Int.tmod_def, ← unsigned, ← unsigned]
  refine ⟨?_, ?_, ?_, ?_⟩
  · exact exec_of_retire (i := .div rd rs1 rs2) rfl rfl
  · exact exec_of_retire (i := .divu rd rs1 rs2) rfl rfl
  · exact exec_of_retire (i := .rem rd rs1 rs2) rfl rfl
  · exact exec_of_retire (i := .remu rd rs1 rs2) rfl rfl

/-! ### The division identity (R219) -/

theorem wrap32_tdiv (a b : Word) : wrap32 (a.toInt.tdiv b.toInt) = a.sdiv b := by
  apply BitVec.eq_of_toInt_eq
  rw [toInt_wrap32, BitVec.toInt_sdiv]

theorem wrap32_sub_mul_tdiv (a b : Word) : wrap32 (a.toInt - b.toInt * a.toInt.tdiv b.toInt) = a.srem b := by
  rw [← Int.tmod_def, ← BitVec.toInt_srem, wrap32_toInt]

theorem wrap32_div (a b : Word) : wrap32 ((a.toNat / b.toNat : Nat) : Int) = a / b := by
  rw [← BitVec.toNat_udiv, wrap32_toNat]

theorem wrap32_mod (a b : Word) : wrap32 ((a.toNat % b.toNat : Nat) : Int) = a % b := by
  rw [← BitVec.toNat_umod, wrap32_toNat]

/-- Only -2^31 / -1 has a quotient that no word holds. -/
theorem toInt_eq_mul_sdiv_add_srem {a b : Word} (fits : ¬(a = 0x80000000#32 ∧ b = 0xFFFFFFFF#32)) :
    a.toInt = b.toInt * (a.sdiv b).toInt + (a.srem b).toInt := by
  rw [BitVec.toInt_sdiv_of_ne_or_ne a b (not_and_or.1 fits), BitVec.toInt_srem, Int.mul_tdiv_add_tmod]

/-- The quotient of -2^31 / -1 wraps to the dividend. -/
theorem sdiv_srem_of_overflow {a b : Word} (overflow : a = 0x80000000#32 ∧ b = 0xFFFFFFFF#32) :
    a.sdiv b = 0x80000000#32 ∧ a.srem b = 0#32 := by
  obtain ⟨rfl, rfl⟩ := overflow
  decide

theorem natAbs_srem_lt (a : Word) {b : Word} (nonzero : b ≠ 0#32) : (a.srem b).toInt.natAbs < b.toInt.natAbs := by
  have positive : 0 < b.toInt.natAbs := Int.natAbs_pos.2 fun zero => nonzero (BitVec.eq_of_toInt_eq zero)
  rw [BitVec.toInt_srem, Int.natAbs_tmod]
  exact Nat.mod_lt _ positive

/-- Settles O26: with a nonzero divisor the four values of `divideResults` are the quotients and remainders of words,
for which the identity holds exactly unless the signed quotient overflows. -/
theorem divisionIdentity : Obligations.DivisionIdentity := by
  intro rd rs1 rs2 s hrd nonzero a b
  have results := divideResults rd rs1 rs2 s
  simp only [if_neg nonzero, wrap32_tdiv, wrap32_sub_mul_tdiv, wrap32_div, wrap32_mod] at results
  obtain ⟨⟨q, divides, quotient⟩, ⟨q', divides', quotient'⟩, ⟨r, leaves, remainder⟩, ⟨r', leaves', remainder'⟩⟩ :=
    results
  refine ⟨⟨q, r, divides, leaves, ?_⟩, ⟨q', r', divides', leaves', ?_⟩⟩
  · rw [quotient.readReg hrd, remainder.readReg hrd]
    refine ⟨?_, natAbs_srem_lt a nonzero⟩
    split_ifs with overflow
    · exact sdiv_srem_of_overflow overflow
    · exact toInt_eq_mul_sdiv_add_srem overflow
  · rw [quotient'.readReg hrd, remainder'.readReg hrd, BitVec.toNat_udiv, BitVec.toNat_umod]
    exact ⟨(Nat.div_add_mod _ _).symm, Nat.mod_lt _ (BitVec.toNat_pos_of_ne_zero nonzero)⟩

end Sys2Proof.Machine
end

section
/-! PROOFS. ecall (spec/46_environment_call.md R230 to R234): what each call number does, which step emits, and an
ecall word where ENVCALL is not loaded. -/

namespace Sys2Proof.Machine

variable {i : Instr} {s t : State}

/-! ### The step of a failing instruction -/

/-- The step that executes a failing instruction that is no store ends in its error and changes nothing. -/
theorem stepFailsUnchanged_of_exec_fault {f : Fault} (fault : exec i s = .fault f) (running : s.halt = false)
    (found : s.nextInstr = .ok i) (notStore : storeParts s i = none) : StepFailsUnchanged s f := by
  refine ⟨?_, ?_⟩
  · rw [step_of_nextInstr running found, fault]; rfl
  · rw [stepCommand_of_exec_fault fault running found, State.afterError_of_not_store found notStore]

/-! ### What ecall does, by its call number (R231 to R233) -/

section CallNumber

variable (rd rs1 : Reg)

theorem exec_ecall_of_haltCall (call : s.readReg callNumberReg = haltCall) :
    exec (.ecall rd rs1) s = .next s.setHalt :=
  if_pos call

theorem exec_ecall_of_printCall (call : s.readReg callNumberReg = printCall) :
    exec (.ecall rd rs1) s = .next (s.emit (s.readReg printReg).toInt).advance := by
  have notHalt : s.readReg callNumberReg ≠ haltCall := by rw [call]; decide
  exact (if_neg notHalt).trans (if_pos call)

theorem exec_ecall_of_otherCall (notHalt : s.readReg callNumberReg ≠ haltCall)
    (notPrint : s.readReg callNumberReg ≠ printCall) :
    exec (.ecall rd rs1) s =
      .fault (.unimplementedSyscall (s.readReg callNumberReg) s.pc (encode (.ecall rd rs1))) :=
  (if_neg notHalt).trans (if_neg notPrint)

end CallNumber

/-- Settles O20: ecall's error carries the encoding of the instruction, which is the fetched word since no bit is
lost in decoding (`encodeAfterDecode`). -/
theorem ecallOtherFails : Obligations.EcallOtherFails := by
  intro s w rd rs1 running fetched decoded notHalt notPrint
  have found : s.nextInstr = .ok (.ecall rd rs1) := nextInstr_ok.2 ⟨w, fetched, decodeWith_ok.1 decoded⟩
  obtain ⟨-, word⟩ := encodeAfterDecode _ _ _ decoded
  have fault := exec_ecall_of_otherCall rd rs1 notHalt notPrint
  rw [word] at fault
  exact stepFailsUnchanged_of_exec_fault fault running found rfl

/-- Settles O18: the halt call is `setHalt`, and a halted CORE's step is a no-op. -/
theorem ecallTenHalts : Obligations.EcallTenHalts := by
  intro rd rs1 s call
  exact ⟨s.setHalt, exec_ecall_of_haltCall rd rs1 call, s.setHalt_halts, step_of_halt s.setHalt_halt⟩

/-- Settles O19: the print call is `emit` of the signed x10 followed by `advance`; the first changes only the events
and the second only the pc. -/
theorem ecallOnePrints : Obligations.EcallOnePrints := by
  intro rd rs1 s call
  exact ⟨_, exec_ecall_of_printCall rd rs1 call, s.emit_sink _, rfl, rfl, State.readReg_congr rfl, fun _ => rfl,
    ⟨rfl, rfl, rfl⟩⟩

/-! ### An ecall word without ENVCALL (R234) -/

theorem nextInstr_of_fetch {w : Word} (fetched : s.fetch = .ok w) : s.nextInstr = s.select w := by
  rw [State.nextInstr, fetched]; rfl

theorem dispatch_of_not_loaded {exts : List Ext} {w : Word} {op : Op} (hit : op.key.matches (decodeFields w) = true)
    (absent : op.ext ∉ exts) : dispatch exts w = .unimplemented :=
  dispatch_of_length_zero ((length_matching hit).trans (List.count_eq_zero.2 absent))

/-- Settles O21: the word matches ecall and so nothing else, which is not loaded; the step ends at dispatch, before
x17 is read. -/
theorem ecallNeedsItsExtension : Obligations.EcallNeedsItsExtension := by
  intro s w running fetched masked absent
  have hit : Op.ecall.key.matches (decodeFields w) = true := (matches_iff_and_mask .ecall w).2 masked
  have noInstr : s.nextInstr = .error (.unimplementedInstruction w s.pc) := by
    rw [nextInstr_of_fetch fetched, State.select, dispatch_of_not_loaded hit absent]
  obtain ⟨fault, -⟩ := stepFailsUnchanged_of_nextInstr running noInstr
  exact fault

/-! ### Which step emits (60_exceptions.md R253, R254) -/

/-- An effect changes the printed events only if it is that of the print call, which appends s(x10). -/
theorem Effect.changed_sink (e : Effect i s t) (changed : t.sink ≠ s.sink) :
    (∃ rd rs1, i = .ecall rd rs1) ∧ s.readReg callNumberReg = printCall ∧
      t.sink = s.sink ++ [(s.readReg printReg).toInt] := by
  cases e with
  | writesReg rd v target => exact absurd (s.writeReg_sink rd v) changed
  | writesPc target => exact absurd rfl changed
  | writesMem ea n v parts inside => exact absurd rfl changed
  | halts why => exact absurd rfl changed
  | prints why call => exact ⟨why, call, s.emit_sink _⟩

/-- Settles O43: neither a halted step nor the clamp emits, so the executed instruction made the print call. -/
theorem onlyPrintCallEmits : Obligations.OnlyPrintCallEmits := by
  intro s t hs changed
  obtain ⟨-, rfl⟩ | ⟨-, i, u, next, -, effect, rfl⟩ := step_next hs
  · exact absurd rfl changed
  · obtain ⟨⟨rd, rs1, rfl⟩, call, sink⟩ := effect.changed_sink changed
    exact ⟨⟨rd, rs1, next⟩, call, sink⟩

end Sys2Proof.Machine
end

section
/-! PROOFS. Errors, run, halt and peek (spec/60_exceptions.md R240 to R254): what a step that ends in an error leaves,
a run as repeated steps, the halted CORE, and the text of the next instruction. -/

namespace Sys2Proof.Machine

variable {i : Instr} {s t : State} {f : Fault} {ea : Word} {n : Nat} {v : Word}

/-! ### What a step that ends in an error leaves (R243, R246) -/

/-- An instruction with store parts is the store of those parts. -/
theorem exec_of_storeParts (parts : storeParts s i = some (ea, n, v)) : exec i s = store ea n v s := by
  obtain ⟨rs1, rs2, imm, kind, rfl, rfl⟩ := storeParts_eq_some parts
  obtain ⟨rfl, rfl⟩ | ⟨rfl, rfl⟩ | ⟨rfl, rfl⟩ := kind
  · rfl
  · rfl
  · rfl

theorem step_of_store_outside (running : s.halt = false) (found : s.nextInstr = .ok i)
    (parts : storeParts s i = some (ea, n, v)) (outside : ¬ea.toNat + n ≤ s.memSize) :
    step s = .fault (.bounds .store ea.toNat n) := by
  rw [step_of_nextInstr running found, exec_of_storeParts parts, store_fault s outside]
  rfl

/-- The states that a step with this error can leave: the one before it, or that of a store which is partly in
bounds, torn. -/
inductive ErrorEffect (s : State) : Fault → State → Prop where
  | unchanged (f : Fault) : ErrorEffect s f s
  | tears {i : Instr} {ea : Word} {n : Nat} {v : Word} (found : s.nextInstr = .ok i)
      (parts : storeParts s i = some (ea, n, v)) (outside : ¬ea.toNat + n ≤ s.memSize) :
      ErrorEffect s (.bounds .store ea.toNat n) (s.tornStore ea n v)

theorem ErrorEffect.of_step_fault (running : s.halt = false) (fault : step s = .fault f) :
    ErrorEffect s f s.afterError := by
  cases found : s.nextInstr with
  | error g =>
    have same : s.afterError = s := by rw [State.afterError, found]
    rw [same]; exact .unchanged f
  | ok i =>
    cases parts : storeParts s i with
    | none => rw [State.afterError_of_not_store found parts]; exact .unchanged f
    | some p =>
      obtain ⟨ea, n, v⟩ := p
      rw [State.afterError_of_store found parts]
      split
      · next torn =>
        have outside : ¬ea.toNat + n ≤ s.memSize := by
          rw [Bool.and_eq_true, Bool.not_eq_true'] at torn
          rw [← s.inBounds_iff, torn.1]
          exact Bool.false_ne_true
        rw [step_of_store_outside running found parts outside] at fault
        obtain rfl := Host.Outcome.fault.inj fault
        exact .tears found parts outside
      · exact .unchanged f

/-- Everything that a step command which ends in an error says. -/
theorem stepCommand_error (h : s.stepCommand = (t, .error f)) :
    s.halt = false ∧ step s = .fault f ∧ ErrorEffect s f t := by
  cases outcome : step s with
  | next u => rw [stepCommand_of_next outcome] at h; cases h
  | refused r => exact absurd outcome (stepNeverRefuses s r)
  | fault g =>
    rw [stepCommand_of_fault outcome] at h
    cases h
    have running : s.halt = false := Bool.eq_false_iff.2 fun halted => by
      rw [step_of_halt halted] at outcome
      cases outcome
    exact ⟨running, rfl, .of_step_fault running outcome⟩

/-- Settles O45: the state is unchanged, or that of a torn store, whose bytes `State.read_tornStore` gives. -/
theorem errorCommitsNothing : Obligations.ErrorCommitsNothing := by
  intro s t f h
  obtain ⟨-, -, effect⟩ := stepCommand_error h
  cases effect with
  | unchanged => exact ⟨fun _ => rfl, rfl, ⟨rfl, rfl⟩, rfl, rfl, fun _ changed => absurd rfl changed⟩
  | @tears i ea n v found parts outside =>
    refine ⟨fun _ => rfl, rfl, ⟨rfl, rfl⟩, rfl, rfl, fun a changed => ?_⟩
    have byte := s.read_tornStore ea n v a
    rw [byte] at changed
    obtain ⟨drawn, -⟩ := ite_ne_right_iff.1 changed
    rw [if_pos drawn] at byte
    obtain ⟨⟨low, high⟩, inside, -⟩ := drawn
    exact ⟨i, ea, n, v, found, parts, rfl, low, high, inside, byte⟩

/-- A torn store that changed no byte took a draw and did nothing else. -/
theorem State.tornStore_of_same_mem (h : (s.tornStore ea n v).mem = s.mem) :
    s.tornStore ea n v = { s with storeDraws := s.storeDraws + 1 } :=
  congrArg (fun m => ({ s with mem := m, storeDraws := s.storeDraws + 1 } : State)) h

/-- Settles O46: an unchanged state fails as before; a torn store that changed no byte differs in the draw counter
alone, so the same store is fetched, at the same address, and is out of bounds again. -/
theorem errorRepeats : Obligations.ErrorRepeats := by
  intro s t f h sameMem
  obtain ⟨running, fault, effect⟩ := stepCommand_error h
  cases effect with
  | unchanged => exact ⟨running, fault⟩
  | tears found parts outside =>
    rw [State.tornStore_of_same_mem sameMem]
    exact ⟨running, step_of_store_outside running found parts outside⟩

/-! ### A run as repeated steps (R250, R251) -/

theorem run_succ_of_next (h : step s = .next t) (k : Nat) : s.run (k + 1) = t.run k := by
  rw [State.run]
  split
  · next halted =>
    obtain rfl : s = t := Host.Outcome.next.inj ((step_of_halt halted).symm.trans h)
    exact (run_of_halt halted k).symm
  · rw [stepCommand_of_next h]

theorem run_succ_of_fault (h : step s = .fault f) (k : Nat) : s.run (k + 1) = (s.afterError, .error f) := by
  rw [State.run]
  split
  · next halted => rw [step_of_halt halted] at h; cases h
  · rw [stepCommand_of_fault h]

section HostRun

variable {M : Host.Core} {u u' : M.State} {r : M.Fault}

theorem core_run_succ_of_next (h : M.step u = .next u') (k : Nat) : M.run (k + 1) u = M.run k u' := by
  rw [Host.Core.run, h]

theorem core_run_succ_of_fault (h : M.step u = .fault r) (k : Nat) : M.run (k + 1) u = .fault r := by
  rw [Host.Core.run, h]

end HostRun

theorem safeFor_succ_of_next (h : step s = .next t) (k : Nat) : s.SafeFor (k + 1) ↔ t.SafeFor k := by
  simp [State.SafeFor, h]

theorem not_safeFor_succ_of_fault (h : step s = .fault f) (k : Nat) : ¬s.SafeFor (k + 1) := by
  simp [State.SafeFor, h]

/-- `k` steps either all answer, and the run ends OK where they lead, or one of them fails, and the run ends in
its error. -/
theorem run_agrees (k : Nat) (s : State) :
    (∃ t, Host.Core.run core k s = .next t ∧ s.run k = (t, .ok) ∧ s.SafeFor k) ∨
      ∃ f t, Host.Core.run core k s = .fault f ∧ s.run k = (t, .error f) ∧ ¬s.SafeFor k := by
  induction k generalizing s with
  | zero => exact .inl ⟨s, rfl, rfl, trivial⟩
  | succ k ih =>
    cases outcome : step s with
    | next u =>
      rw [core_run_succ_of_next (M := core) outcome, run_succ_of_next outcome, safeFor_succ_of_next outcome]
      exact ih u
    | fault f =>
      exact .inr ⟨f, s.afterError, core_run_succ_of_fault (M := core) outcome k, run_succ_of_fault outcome k,
        not_safeFor_succ_of_fault outcome k⟩
    | refused r => exact absurd outcome (stepNeverRefuses s r)

/-- Settles O47: in either case of `run_agrees` the three results are known, and each part compares two of them. -/
theorem runIsRepeatedStep : Obligations.RunIsRepeatedStep := by
  intro k s
  obtain ⟨t, steps, run, safe⟩ | ⟨f, t, steps, run, failing⟩ := run_agrees k s
  · rw [steps, run]
    exact ⟨fun u same => by cases same; rfl, nofun, fun _ => safe, fun _ => ⟨t, rfl⟩⟩
  · rw [steps, run]
    exact ⟨nofun, fun g same => by cases same; exact ⟨t, rfl⟩, nofun, fun safe => absurd safe failing⟩

/-! ### The halted CORE (R249) -/

/-- Only the halting instructions have an effect that sets the halt flag. -/
theorem Effect.sets_halt (e : Effect i s t) (running : s.halt = false) (halted : t.halt = true) :
    (∃ rd rs1, i = .ebreak rd rs1) ∨ (∃ rd rs1, i = .ecall rd rs1) ∧ s.readReg callNumberReg = haltCall := by
  have changed : t.halt ≠ s.halt := by rw [running, halted]; decide
  cases e with
  | writesReg rd v target => exact absurd (s.writeReg_halt rd v) changed
  | writesPc target => exact absurd rfl changed
  | writesMem ea n v parts inside => exact absurd rfl changed
  | halts why => exact why
  | prints why call => exact absurd rfl changed

theorem core_run_of_halt (halted : s.halt = true) (k : Nat) : Host.Core.run core k s = .next s := by
  induction k with
  | zero => rfl
  | succ k ih => exact (core_run_succ_of_next (M := core) (step_of_halt halted) k).trans ih

/-- An image that fits is loaded in a halted CORE, which stays halted, and its bytes are read back. -/
theorem performs_loadImage_of_halt (halted : s.halt = true) {base : Word} {bytes : List Byte}
    (fits : base.toNat + bytes.length ≤ s.memSize) :
    ∃ t, Performs s (.loadImage base bytes) (t, .done .ok) ∧ t.halt = true ∧
      ∀ k, k < bytes.length → Performs t (.readMem (base.toNat + k)) (t, .byte (bytes.getD k 0#8)) := by
  obtain ⟨image, -⟩ := loadImageAllOrNothing s base bytes
  obtain ⟨t, -, performs, written, -, -, -, ⟨halt, -⟩, config⟩ := image fits
  refine ⟨t, performs, halt.trans halted, fun k hk => ?_⟩
  have inside : base.toNat + k < t.memSize := by rw [config.memSize]; omega
  simp only [Performs, State.readMem_of_lt inside, written k hk]

/-- Settles O41: the two halting instructions are `setHalt` and no other effect sets the flag; a halted CORE's step
is a no-op, only reset clears the flag (`Performs.keeps_halt`), and the other commands do not test it. -/
theorem haltConvention : Obligations.HaltConvention := by
  refine ⟨fun rd rs1 s => ⟨s.setHalt, rfl, rfl, rfl⟩,
    fun rd rs1 s call => ⟨s.setHalt, exec_ecall_of_haltCall rd rs1 call, rfl, rfl⟩,
    fun s t running hs halted => ?_, fun s k halted => core_run_of_halt halted k,
    fun s t c r halted hp cleared => ?_, fun s _ => ⟨s.resetCommand, rfl, rfl⟩, fun s halted => ?_⟩
  · obtain ⟨already, -⟩ | ⟨-, i, u, next, -, effect, rfl⟩ := step_next hs
    · rw [running] at already; cases already
    · simp only [next, Except.ok.injEq]
      exact effect.sets_halt running halted
  · by_contra other
    rw [hp.keeps_halt halted other] at cleared
    cases cleared
  · have readsHalt : Performs s .readHalt (s, .halt true) := halted ▸ rfl
    exact ⟨fun base bytes fits => performs_loadImage_of_halt halted fits, rfl, rfl, readsHalt⟩

/-! ### peek (R252, 30_encoding.md R102) -/

theorem peek_of_outside (outside : ¬s.pc.toNat + 4 ≤ s.memSize) : s.peek = Config.placeholderText := by
  rw [State.peek, fetch_eq_error outside]

theorem peek_of_found {op : Op} (inside : s.pc.toNat + 4 ≤ s.memSize)
    (found : dispatch s.extList s.wordAtPc = .found op) : s.peek = op.disassemble s.wordAtPc := by
  simp only [State.peek, fetch_eq_wordAtPc inside, found]

theorem peek_of_not_found (notFound : ∀ op, dispatch s.extList s.wordAtPc ≠ .found op) :
    s.peek = Config.placeholderText := by
  by_cases inside : s.pc.toNat + 4 ≤ s.memSize
  · cases found : dispatch s.extList s.wordAtPc with
    | found op => exact absurd found (notFound op)
    | unimplemented | conflict => simp only [State.peek, fetch_eq_wordAtPc inside, found]
  · exact peek_of_outside inside

/-- What dispatch finds is the only match. -/
theorem length_matching_of_found {exts : List Ext} {w : Word} {op : Op} (h : dispatch exts w = .found op) :
    (matching exts w).length = 1 := by
  obtain ⟨hit, once⟩ := dispatch_found h
  exact (length_matching hit).trans once

/-- Settles O50: the cases are the fetch's bound and the number of matches, by which dispatch decides. -/
theorem peekNeverFails : Obligations.PeekNeverFails := by
  intro s
  refine ⟨peek_of_outside, fun inside => ⟨fun op one => ?_, fun notOne => ?_⟩, fun _ _ => Prod.mk_inj.1⟩
  · exact peek_of_found inside (dispatch_of_singleton one)
  · exact peek_of_not_found fun op found => notOne (length_matching_of_found found)

end Sys2Proof.Machine
end

section
/-! PROOFS. construct and reset (spec/70_reset_and_hazards.md R280 to R285): the initial values, construct's two checks,
and the first step. -/

namespace Sys2Proof.Machine

variable {s : State} {size : SizeArg} {entries : List ExtEntry}

/-! ### reset (R282) -/

@[simp] theorem State.readReg_resetCommand (s : State) (r : Reg) : s.resetCommand.readReg r = 0#32 := by
  simp [State.readReg]

theorem State.read_mem_resetCommand (s : State) (a : Nat) : s.resetCommand.mem.read a = 0#8 := rfl

/-- Settles O52: `State.resetCommand` is the one state of the command, and its fields are the initial ones or kept. -/
theorem resetRestores : Obligations.ResetRestores := by
  intro s
  exact ⟨s.resetCommand, fun _ _ => Prod.mk_inj, s.readReg_resetCommand, rfl, rfl, s.read_mem_resetCommand,
    rfl, rfl, rfl⟩

/-! ### construct (R280, R281) -/

/-- What construct creates is as reset would restore it. -/
theorem resetCommand_of_construct (h : construct size entries = .ok s) : s.resetCommand = s := by
  obtain ⟨n, exts, -, -, -, -, rfl⟩ := construct_eq_ok.1 h
  rfl

theorem State.Inv.construct (h : construct size entries = .ok s) : s.Inv := by
  obtain ⟨n, exts, -, low, high, -, rfl⟩ := construct_eq_ok.1 h
  exact {
    memCanonical := Memory.wf_nil
    memInside := List.forall_mem_nil _
    sizeLegal := ⟨low, high⟩
    zeroReg := resetMeetsInvariant.zeroReg
    eventsSigned := List.forall_mem_nil _ }

theorem construct_of_size_refused (entries : List ExtEntry) (refused : size.accepted = none) :
    construct size entries = .error (.configMemSize size) := by
  rw [Machine.construct, refused]

/-- With an accepted size, construct fails as the check of the list does. -/
theorem construct_of_entries_refused {n : Nat} {f : Fault} (accepted : size.accepted = some n)
    (refused : checkExtensions 0 entries = .error f) : construct size entries = .error f := by
  rw [Machine.construct, accepted, refused]
  rfl

/-- Settles O51: the size is accepted or is the error; then the list passes or names its first malformed entry. -/
theorem constructResult : Obligations.ConstructResult := by
  intro entries
  refine ⟨fun text => rfl, fun size => ⟨fun outside => ?_, fun inside => ?_⟩⟩
  · exact construct_of_size_refused entries (if_neg outside)
  · lift size to Nat using by omega with n
    have low : 1 ≤ n := by omega
    have high : n ≤ Config.maxMemSize := by unfold Config.maxMemSize; omega
    refine ⟨fun exts known => ?_, fun pre post malformed => ?_⟩
    · have created := construct_eq_ok.2 ⟨n, exts, rfl, low, high, known, rfl⟩
      have initial := resetCommand_of_construct created
      exact ⟨_, created, rfl, rfl, initial ▸ State.readReg_resetCommand _, rfl, rfl, fun _ => rfl, rfl,
        .construct created⟩
    · have first : checkExtensions 0 entries = .error (.configExtension pre.length) := by
        rw [malformed, checkExtensions_malformed, Nat.zero_add]
      exact construct_of_entries_refused (SizeArg.accepted_eq_some.2 ⟨rfl, low, high⟩) first

/-! ### The first step after reset (R285) -/

theorem State.wordAtPc_resetCommand (s : State) : s.resetCommand.wordAtPc = 0#32 := by
  simp only [State.wordAtPc, State.read_mem_resetCommand]
  rfl

/-- No behavior matches the zero word: its low bits are not 11 (30_encoding.md R97). -/
theorem dispatch_zero (exts : List Ext) : dispatch exts 0#32 = .unimplemented :=
  illegalWordsMatchNothing exts 0#32 (.inl (by decide))

/-- Settles O53: the pc is 0 and memory is zero, so either the fetch is out of bounds or it gives the zero word. -/
theorem stepAfterReset : Obligations.StepAfterReset := by
  intro s
  refine ⟨fun room => ?_, fun small => ?_⟩
  · have inside : s.resetCommand.pc.toNat + 4 ≤ s.resetCommand.memSize := by simpa using room
    have noInstr : s.resetCommand.nextInstr = .error (.unimplementedInstruction 0#32 0#32) := by
      rw [nextInstr_of_inBounds inside, s.wordAtPc_resetCommand, State.select, dispatch_zero]
      rfl
    exact (stepFailsUnchanged_of_nextInstr rfl noInstr).1
  · have outside : ¬s.resetCommand.pc.toNat + 4 ≤ s.resetCommand.memSize := by simpa using small
    exact (stepFailsUnchanged_of_nextInstr rfl (nextInstr_of_fetch_error (fetch_eq_error outside))).1

end Sys2Proof.Machine
end
